-- ==== Sys2Proof/Word.lean ====
section
/-! DEFINITION. The word types of the BITIO engine: the widths that 00_scope R7 fixes. -/

namespace Sys2Proof

/-- One byte of a stream: the unit of every port transaction (20_memory R50). -/
abbrev Byte := BitVec 8

/-- The command word `CMD[15:0]` (30_encoding R70). -/
abbrev CmdWord := BitVec 16

/-- The data operand `DATA[63:0]` and the response's `RESULT[63:0]` (30_encoding R70, R80). -/
abbrev Data := BitVec 64

/-- The accumulator register `REG`, `CAP = 72` bits wide (00_scope R7, 10_state R23). -/
abbrev RegWord := BitVec 72

/-- The bit count `CNT`, 7 bits wide (00_scope R7, 10_state R23). -/
abbrev CntWord := BitVec 7

end Sys2Proof
end

