-- ==== Sys2Proof/Syntax.lean ====
section
/-! DEFINITION. The commands of the engine as syntax: one constructor per row of the opcode table (30_encoding R72, R85). -/

namespace Sys2Proof

/-- The four tiers an instance can be opened in (00_scope R2, 30_encoding R74). -/
inductive Tier where
  | std      -- 0: StandardBitReader
  | bulk     -- 1: BulkBitReader
  | fast     -- 2: FastBitReader
  | writer   -- 3: BitWriter
deriving DecidableEq, Repr, Inhabited

/-- The bit-packing order (00_scope R11, 30_encoding R74). -/
inductive Endian where
  | be   -- 0: BigEndian, MSB-first
  | le   -- 1: LittleEndian, LSB-first
deriving DecidableEq, Repr, Inhabited

/-- The nine commands with their operands. `n` is the width field `N` (R73), `data` the operand `DATA`, which WRITE alone reads (R77). -/
inductive Instr where
  | openCmd (tier : Tier) (endian : Endian)   -- OPEN    (44_control R210)
  | read (n : Nat)                            -- READ    (41_reader R137, R138)
  | peek (n : Nat)                            -- PEEK    (41_reader R139, R141)
  | readu (n : Nat)                           -- READU   (42_fast_reader R160)
  | write (n : Nat) (data : Data)             -- WRITE   (43_writer R183)
  | flush                                     -- FLUSH   (43_writer R186)
  | avail                                     -- AVAIL   (44_control R230)
  | close                                     -- CLOSE   (44_control R220)
  | discard                                   -- DISCARD (44_control R225)
deriving DecidableEq, Repr

/-- Why a command word is no command (60_exceptions R242, causes 1 to 3). -/
inductive Illegal where
  | reservedBits     -- RSV != 0 (30_encoding R75)
  | reservedOpcode   -- OPC 0x0 or 0xA to 0xF (30_encoding R78)
  | unusedField      -- a nonzero field the opcode does not use (30_encoding R76)
deriving DecidableEq, Repr

/-- What decoding a command word answers: a command or a named reason (30_encoding R79). -/
inductive Decoded where
  | instr (i : Instr)
  | illegal (why : Illegal)
deriving DecidableEq, Repr

end Sys2Proof
end

