-- ==== Sys2Proof/WellFormed.lean ====
section
/-! DEFINITION. Which terms of `Instr` a command word can spell: `N` is a 7-bit field (30_encoding R71, R73). -/

namespace Sys2Proof

/-- `N` spells the widths 0 to 127; `TIER`, `END` and `DATA` are bounded by their types. A width the ENGINE rejects (0, or 65 to 127) is
well formed: it can be issued (30_encoding R73). -/
abbrev Instr.WellFormed : Instr → Prop
  | .openCmd _ _ => True
  | .read n => n < 128
  | .peek n => n < 128
  | .readu n => n < 128
  | .write n _ => n < 128
  | .flush => True
  | .avail => True
  | .close => True
  | .discard => True

end Sys2Proof
end

