-- ==== Sys2Proof/Decode.lean ====
section
/-! DEFINITION. The decoder, total on all command words (30_encoding R79), then the encoder (R71, R85), then the opcode map as rows (R85). -/

namespace Sys2Proof

/-! ### The fields of the command word (30_encoding R71) -/

/-- `CMD[3:0]`. -/
def opcOf (cmd : CmdWord) : BitVec 4 := cmd.extractLsb' 0 4

/-- `CMD[10:4]`. -/
def nOf (cmd : CmdWord) : BitVec 7 := cmd.extractLsb' 4 7

/-- `CMD[12:11]`. -/
def tierBitsOf (cmd : CmdWord) : BitVec 2 := cmd.extractLsb' 11 2

/-- `CMD[13]`. -/
def endBitOf (cmd : CmdWord) : BitVec 1 := cmd.extractLsb' 13 1

/-- `CMD[15:14]`. -/
def rsvOf (cmd : CmdWord) : BitVec 2 := cmd.extractLsb' 14 2

/-- The tier numbers of 30_encoding R74. -/
def tierOfBits (b : BitVec 2) : Tier :=
  if b = 0#2 then .std else if b = 1#2 then .bulk else if b = 2#2 then .fast else .writer

/-- 30_encoding R74, the other way. -/
def tierBits : Tier → BitVec 2
  | .std => 0#2
  | .bulk => 1#2
  | .fast => 2#2
  | .writer => 3#2

/-- The endianness numbers of 30_encoding R74. -/
def endianOfBit (b : BitVec 1) : Endian :=
  if b = 0#1 then .be else .le

/-- 30_encoding R74, the other way. -/
def endianBit : Endian → BitVec 1
  | .be => 0#1
  | .le => 1#1

/-! ### The decoder (30_encoding R79) -/

/-- A command that uses `N`: `TIER` and `END` must be 0 (30_encoding R76). -/
def decodeWidth (cmd : CmdWord) (make : Nat → Instr) : Decoded :=
  if tierBitsOf cmd ≠ 0#2 ∨ endBitOf cmd ≠ 0#1 then .illegal .unusedField
  else .instr (make (nOf cmd).toNat)

/-- A command that uses no field: `N`, `TIER` and `END` must be 0 (30_encoding R76). -/
def decodeBare (cmd : CmdWord) (i : Instr) : Decoded :=
  if nOf cmd ≠ 0#7 ∨ tierBitsOf cmd ≠ 0#2 ∨ endBitOf cmd ≠ 0#1 then .illegal .unusedField
  else .instr i

/-- OPEN: `N` must be 0 (30_encoding R76). -/
def decodeOpen (cmd : CmdWord) : Decoded :=
  if nOf cmd ≠ 0#7 then .illegal .unusedField
  else .instr (.openCmd (tierOfBits (tierBitsOf cmd)) (endianOfBit (endBitOf cmd)))

/-- 30_encoding R79: total on all 65,536 words. Only WRITE reads `data` (R77). -/
def decode (cmd : CmdWord) (data : Data) : Decoded :=
  if rsvOf cmd ≠ 0#2 then .illegal .reservedBits
  else
    match (opcOf cmd).toNat with
    | 0x1 => decodeOpen cmd
    | 0x2 => decodeWidth cmd .read
    | 0x3 => decodeWidth cmd .peek
    | 0x4 => decodeWidth cmd .readu
    | 0x5 => decodeWidth cmd (fun n => .write n data)
    | 0x6 => decodeBare cmd .flush
    | 0x7 => decodeBare cmd .avail
    | 0x8 => decodeBare cmd .close
    | 0x9 => decodeBare cmd .discard
    | _ => .illegal .reservedOpcode

/-- The host's question: the instruction of an opcode-table row whose bits are `w`. The row's word is `CMD`, bits 15 to 0; any bits above
it are `DATA` (log 13). -/
def decodeTableWord (nbits w : Nat) : Option Instr :=
  let bits := w % 2 ^ nbits
  match decode (BitVec.ofNat 16 bits) (BitVec.ofNat 64 (bits >>> 16)) with
  | .instr i => some i
  | .illegal _ => none

/-! ### The encoder (30_encoding R71, R85) -/

/-- The command word from its fields, most significant first: `RSV`, `END`, `TIER`, `N`, `OPC` (30_encoding R71). -/
def packCmd (endBit : BitVec 1) (tier : BitVec 2) (n : BitVec 7) (opc : BitVec 4) : CmdWord :=
  0#2 ++ endBit ++ tier ++ n ++ opc

/-- The command word of an instruction. -/
def encodeCmd : Instr → CmdWord
  | .openCmd t e => packCmd (endianBit e) (tierBits t) 0#7 0x1#4
  | .read n => packCmd 0#1 0#2 (BitVec.ofNat 7 n) 0x2#4
  | .peek n => packCmd 0#1 0#2 (BitVec.ofNat 7 n) 0x3#4
  | .readu n => packCmd 0#1 0#2 (BitVec.ofNat 7 n) 0x4#4
  | .write n _ => packCmd 0#1 0#2 (BitVec.ofNat 7 n) 0x5#4
  | .flush => packCmd 0#1 0#2 0#7 0x6#4
  | .avail => packCmd 0#1 0#2 0#7 0x7#4
  | .close => packCmd 0#1 0#2 0#7 0x8#4
  | .discard => packCmd 0#1 0#2 0#7 0x9#4

/-- The data operand of an instruction; 0 where the command ignores `DATA` (DESIGN CHOICE, log 12). -/
def encodeData : Instr → Data
  | .write _ data => data
  | _ => 0#64

/-- The pair the host issues (30_encoding R70). -/
def encode (i : Instr) : CmdWord × Data := (encodeCmd i, encodeData i)

/-! ### The opcode map (30_encoding R85) -/

/-- `CMD & mask = value` selects the row (30_encoding R85). -/
def rowSelects (row : CmdWord × CmdWord) (cmd : CmdWord) : Bool := cmd &&& row.2 == row.1

/-- The row (match, mask) of 30_encoding R85 for an instruction's mnemonic. -/
def rowOf : Instr → CmdWord × CmdWord
  | .openCmd _ _ => (0x0001#16, 0xC7FF#16)
  | .read _ => (0x0002#16, 0xF80F#16)
  | .peek _ => (0x0003#16, 0xF80F#16)
  | .readu _ => (0x0004#16, 0xF80F#16)
  | .write _ _ => (0x0005#16, 0xF80F#16)
  | .flush => (0x0006#16, 0xFFFF#16)
  | .avail => (0x0007#16, 0xFFFF#16)
  | .close => (0x0008#16, 0xFFFF#16)
  | .discard => (0x0009#16, 0xFFFF#16)

/-- All nine rows of 30_encoding R85, in its order. -/
def opcodeRows : List (CmdWord × CmdWord) :=
  [(0x0001#16, 0xC7FF#16), (0x0002#16, 0xF80F#16), (0x0003#16, 0xF80F#16), (0x0004#16, 0xF80F#16), (0x0005#16, 0xF80F#16),
   (0x0006#16, 0xFFFF#16), (0x0007#16, 0xFFFF#16), (0x0008#16, 0xFFFF#16), (0x0009#16, 0xFFFF#16)]

end Sys2Proof
end

