-- ==== Sys2Proof/Config.lean ====
section
/-! DEFINITION. What an implementation fixes and what the environment draws: constants without a value (00_scope R7 "open"; 93 O1, O6, O7).
Nothing in Lean can evaluate them: a claim holds for every value of them. -/

namespace Sys2Proof

/-- What the source agent does with one pull (20_memory R52, R53): a byte, the end-of-stream signal, or nothing ever (R56). -/
inductive SourceAnswer where
  | byte (b : Byte)
  | eos
  | never
deriving DecidableEq, Repr, Inhabited

/-- What the sink agent does with one offered byte (20_memory R54, R55): accept, refuse, or nothing ever (R56). -/
inductive SinkAnswer where
  | accept
  | refuse
  | never
deriving DecidableEq, Repr, Inhabited

/-- FREE VALUE (log 1): the answer of instance `i`'s source to pull number `k` of the run, where nothing has settled it (20_memory R52 "a
draw"). Nothing relates the draws of two instances. -/
opaque Config.sourceDraw (i k : Nat) : SourceAnswer

/-- FREE VALUE (log 2): the answer of instance `i`'s sink to offer number `k` of the run, where nothing has settled it (20_memory R55 "a
draw"). Nothing relates the draws of two instances. -/
opaque Config.sinkDraw (i k : Nat) : SinkAnswer

/-- FREE VALUE (log 4): what instance `i` would like to prefetch at refill draw `k`, before the bound of 41_reader R136 is applied. Nothing
relates the draws of two instances. -/
opaque Config.prefetchDraw (i k : Nat) : Nat

/-- OPEN PARAMETER `BULK_MAX_EXTRA` of instance `i` (00_scope R7, log 4). That each instance of a platform has one of its own, which may
equal another's or not, is the model's choice: the spec does not say whether they share one (DESIGN CHOICE, log 21). -/
opaque Config.bulkMaxExtra (i : Nat) : Nat

/-- The open parameter `INSTANCES` less one, so that `INSTANCES` is positive (00_scope R7, log 11). -/
opaque Config.instancesLessOne : Nat

/-- OPEN PARAMETER `INSTANCES`, a positive natural number (00_scope R7, 60_exceptions R255). -/
def Config.instances : Nat := Config.instancesLessOne + 1

end Sys2Proof
end

