-- ==== Sys2Proof/Machine/State.lean ====
section
/-! DEFINITION. The machine's state as plain data: the four agents of 00_scope R6 and the implementation's prefetch choices; the reasons a
step can stop; the state after reset. -/

namespace Sys2Proof.Machine

/-- The status of a response (30_encoding R80); its 3-bit code is `Status.code` in Machine/Flags.lean. -/
inductive Status where
  | ok
  | invalidWidth
  | endOfStream
  | overflow
  | sinkFail
  | illegalCommand
deriving DecidableEq, Repr, Inhabited

/-- One response: a status and a 64-bit result (30_encoding R80). -/
structure Response where
  status : Status
  result : Data
deriving DecidableEq, Repr, Inhabited

/-- The accumulator states of 10_state R29; a function of `CNT`, never stored. -/
inductive AccState where
  | empty
  | partly
  | hasFullByte
deriving DecidableEq, Repr

/-- The engine's state, exactly the six pieces of 10_state R23 (`TIER` and `END` by name, log 20). -/
structure Engine where
  /-- `CFG_VALID`: the instance is configured. -/
  cfgValid : Bool
  /-- `TIER`. -/
  tier : Tier
  /-- `END`. -/
  endian : Endian
  /-- `REG`, the accumulator register. -/
  reg : RegWord
  /-- `CNT`, the number of valid bits in `REG`. -/
  cnt : CntWord
  /-- `UB`, model-only: a case the source calls undefined was met (10_state R28). -/
  ub : Bool
deriving DecidableEq, Repr

/-- The source agent (20_memory R52, R53). `owner`, `script` and `deterministic` are the model's own (log 1, log 21). -/
structure Source where
  /-- The number of the instance whose source this is: which free draws are its own (log 21). No command reads or writes it. -/
  owner : Nat
  /-- Answers already settled, the next one first. -/
  script : List SourceAnswer
  /-- Past the script: `true`, EOS for ever (the test source of R52); `false`, a free draw. -/
  deterministic : Bool
  /-- Pulls made so far. -/
  pulls : Nat
  /-- The bytes delivered, in order (70 R284). -/
  delivered : List Byte
deriving DecidableEq, Repr

/-- The sink agent (20_memory R54, R55). `owner`, `script` and `deterministic` are the model's own (log 2, log 21). -/
structure Sink where
  /-- The number of the instance whose sink this is: which free draws are its own (log 21). No command reads or writes it. -/
  owner : Nat
  /-- Answers already settled, the next one first. -/
  script : List SinkAnswer
  /-- Past the script: `true`, ACCEPT for ever (the test sink of R55); `false`, a free draw. -/
  deterministic : Bool
  /-- Offers made so far. -/
  offers : Nat
  /-- The bytes accepted, in order (70 R284). -/
  bytes : List Byte
deriving DecidableEq, Repr

/-- One move of the host (60_exceptions R258): issue a command, or apply reset between commands (70 R270). -/
inductive HostMove where
  | command (cmd : CmdWord) (data : Data)
  | reset
deriving DecidableEq, Repr

/-- The host agent: its program with an index (10_state R21), and the responses it has received (70 R284). -/
structure HostAgent where
  program : List HostMove
  index : Nat
  responses : List Response
deriving DecidableEq, Repr

/-- The implementation's choices the source leaves open for the BULK tier (41_reader R136); the model's own (log 4). -/
structure Prefetch where
  /-- The number of the instance that makes these draws: which free draws are its own (log 21). No command reads or writes it. -/
  owner : Nat
  /-- The parameter `BULK_MAX_EXTRA` (00_scope R7). -/
  maxExtra : Nat
  /-- Prefetch draws already settled, the next one first. -/
  script : List Nat
  /-- Draws made so far. -/
  draws : Nat
deriving DecidableEq, Repr

/-- One instance with its environment. -/
structure State where
  engine : Engine
  source : Source
  sink : Sink
  host : HostAgent
  prefetch : Prefetch
deriving DecidableEq, Repr

/-- Why the machine stops. -/
inductive Fault where
  /-- `fault UNDEFINED` (10_state R28). Raised by READU when a precondition is broken (42_fast_reader R162), by a primitive called outside
  its precondition (93 U1 to U4, which no command reaches), and by a step from a state with `UB = 1`. It carries the faulted state, in which
  `UB = 1`; the other fields of that state mean nothing, since hardware may do anything (log 5). SAFE: no claim about a later state can be proved. -/
  | undefined (faulted : State)
  /-- The source never answers a pull: the command never completes and the engine has no step (20_memory R56). Raised by READ, PEEK and
  READU (log 3). SAFE. -/
  | sourceNeverAnswers
  /-- The sink never answers an offer (20_memory R56). Raised by WRITE, FLUSH and CLOSE (log 3). SAFE. -/
  | sinkNeverAnswers
deriving DecidableEq, Repr

/-- Why an instruction has no meaning. -/
inductive Refusal where
  /-- Raised by an arm of `exec` that is not modelled yet; no arm is left. SAFE. -/
  | notModelled (mnemonic : String)
deriving DecidableEq, Repr

/-- The engine after reset (70_reset_and_hazards R270). -/
def Engine.reset : Engine where
  cfgValid := false
  tier := .std
  endian := .be
  reg := 0#72
  cnt := 0#7
  ub := false

/-- Instance number `i` of a platform right after reset, at the start of a run (70 R284): the engine as R270 says; nothing delivered,
accepted, issued or answered yet, and no answer of the environment settled (DESIGN CHOICE, log 10); `BULK_MAX_EXTRA` as the implementation
fixes it (log 4); its source, sink and prefetch draw free values of their own (log 21). -/
def State.resetOf (i : Nat) : State where
  engine := Engine.reset
  source := { owner := i, script := [], deterministic := false, pulls := 0, delivered := [] }
  sink := { owner := i, script := [], deterministic := false, offers := 0, bytes := [] }
  host := { program := [], index := 0, responses := [] }
  prefetch := { owner := i, maxExtra := Config.bulkMaxExtra i, script := [], draws := 0 }

/-- The machine right after reset (70 R270, R284): one instance, to which the model gives the number 0 (DESIGN CHOICE, log 21). -/
def State.reset : State := State.resetOf 0

end Sys2Proof.Machine
end

