-- ==== Sys2Proof/Machine/Operands.lean ====
section
/-! DEFINITION. Operand forms: widths and masks (00_scope R7, R8), bit orders (20_memory R57, R58), the slices the primitives take of `REG`
(40_accumulator R102 to R107), the mandatory byte count (41_reader R132), and the derived views of the engine (10_state R24, R27, R29). -/

namespace Sys2Proof.Machine

/-- `FIELD_MIN` (00_scope R7). -/
def fieldMin : Nat := 1

/-- `FIELD_MAX` (00_scope R7). -/
def fieldMax : Nat := 64

/-- `CNT_MAX` (00_scope R7). -/
def cntMax : Nat := 71

/-- The width check of a validated command (41_reader R131, 43_writer R184), and READU's precondition P1 (42_fast_reader R161). -/
def validWidth (n : Nat) : Bool := decide (fieldMin ≤ n) && decide (n ≤ fieldMax)

/-- `ceil_div(a, b)` for `b > 0` (00_scope R8). -/
def ceilDiv (a b : Nat) : Nat := (a + (b - 1)) / b

/-- `CNT` as a natural number. -/
def Engine.count (e : Engine) : Nat := e.cnt.toNat

/-- `need(n)`: the mandatory byte count of a request of `n` bits (41_reader R132). -/
def Engine.need (e : Engine) (n : Nat) : Nat :=
  if e.count ≥ n then 0 else ceilDiv (n - e.count) 8

/-- `CNT <- k`, in 7 bits (00_scope R8: the truncation is by 2^7; none happens in a reachable state, 10_state R25; log 14). -/
def countOf (k : Nat) : CntWord := BitVec.ofNat 7 k

/-- `mask(k)` as a `REG`-wide value (00_scope R8). -/
def maskReg (k : Nat) : RegWord := BitVec.ofNat 72 (2 ^ k - 1)

/-- `v & mask(k)` for a data operand (00_scope R8): the field WRITE deposits (30_encoding R77). -/
def lowData (v : Data) (k : Nat) : Data := v &&& BitVec.ofNat 64 (2 ^ k - 1)

/-- `zext_64(r[lo+n-1 : lo])` (00_scope R8). -/
def sliceData (r : RegWord) (lo n : Nat) : Data := (r.extractLsb' lo n).setWidth 64

/-- `r[lo+7 : lo]` as a byte. -/
def sliceByte (r : RegWord) (lo : Nat) : Byte := r.extractLsb' lo 8

/-- A data operand as a `REG`-wide value. -/
def widenData (v : Data) : RegWord := v.setWidth 72

/-- A byte as a `REG`-wide value. -/
def widenByte (b : Byte) : RegWord := b.setWidth 72

/-! ### Bit orders (20_memory R57, R58) -/

/-- The `n` low bits of a value, most significant first. -/
def bitsDown (n : Nat) (bit : Nat → Bool) : List Bool := (List.range n).map (fun i => bit (n - 1 - i))

/-- The `n` low bits of a value, least significant first. -/
def bitsUp (n : Nat) (bit : Nat → Bool) : List Bool := (List.range n).map bit

/-- The `n` low bits of a value in stream order: MSB first under BE, LSB first under LE. -/
def bitsInOrder (order : Endian) (n : Nat) (bit : Nat → Bool) : List Bool :=
  match order with
  | .be => bitsDown n bit
  | .le => bitsUp n bit

/-- `byte_bits(b, E)` (20_memory R57). -/
def byteBits (order : Endian) (b : Byte) : List Bool := bitsInOrder order 8 b.getLsbD

/-- The stream's bit sequence: `byte_bits` over its bytes, in byte order (20_memory R57). -/
def streamBits (order : Endian) (bs : List Byte) : List Bool := bs.flatMap (byteBits order)

/-- `field_bits(v, n, E)` (20_memory R58; for LE the spec's own choice, log 18). -/
def fieldBits (order : Endian) (n : Nat) (v : Data) : List Bool := bitsInOrder order n v.getLsbD

/-- `zeros(k)` (40_accumulator R110). -/
def zeros (k : Nat) : List Bool := List.replicate k false

/-! ### Derived views of the engine -/

/-- The window `W`: the valid bits of `REG` in stream order, oldest first (10_state R27). -/
def Engine.window (e : Engine) : List Bool := bitsInOrder e.endian e.count e.reg.getLsbD

/-- Empty, Partial or HasFullByte (10_state R29). -/
def Engine.accState (e : Engine) : AccState :=
  if e.count = 0 then .empty else if e.count < 8 then .partly else .hasFullByte

/-- The notional register `CONFIG` (10_state R24): bit 0 `CFG_VALID`, bits 2:1 `TIER`, bit 3 `END`. -/
def Engine.config (e : Engine) : BitVec 4 :=
  (match e.endian with | .be => 0#1 | .le => 1#1)
    ++ (match e.tier with | .std => 0#2 | .bulk => 1#2 | .fast => 2#2 | .writer => 3#2)
    ++ BitVec.ofBool e.cfgValid

end Sys2Proof.Machine
end

