-- ==== Sys2Proof/Machine/Flags.lean ====
section
/-! DEFINITION. The engine has no flags (10_state R22); what stands in their place is the status of a response (30_encoding R80) and the
legality of a command in a state (60_exceptions R243). -/

namespace Sys2Proof.Machine

/-- The 3-bit status codes of 30_encoding R80; 6 and 7 are never returned. -/
def Status.code : Status → BitVec 3
  | .ok => 0#3
  | .invalidWidth => 1#3
  | .endOfStream => 2#3
  | .overflow => 3#3
  | .sinkFail => 4#3
  | .illegalCommand => 5#3

/-- The instance is a validated reader (00_scope R11). -/
def Engine.isReader (e : Engine) : Bool := e.cfgValid && (e.tier == .std || e.tier == .bulk)

/-- The legality matrix of 60_exceptions R243: does the command run its rule in this state? -/
def legal (i : Instr) (e : Engine) : Bool :=
  match i with
  | .openCmd _ _ => !e.cfgValid
  | .read _ => e.isReader
  | .peek _ => e.isReader
  | .readu _ => e.cfgValid && e.tier == .fast
  | .write _ _ => e.cfgValid && e.tier == .writer
  | .flush => e.cfgValid && e.tier == .writer
  | .avail => e.cfgValid
  | .close => e.cfgValid
  | .discard => e.cfgValid

end Sys2Proof.Machine
end

