-- ==== Sys2Proof/Machine/Ops.lean ====
section
/-! DEFINITION. The named operations: the accumulator's primitives (40_accumulator), the two ports (20_memory), the refills (41_reader), the
drain and the flush (43_writer), and how a command ends (00_scope R9). The engine takes no exceptions (60_exceptions R251): an error is
`raise`, which answers a status and goes on. -/

namespace Sys2Proof.Machine

/-- The outcome of a command or a step. -/
abbrev Result := Host.Outcome State Fault Refusal

/-! ### Accumulator primitives (40_accumulator R100)

`none` stands for the primitive's own failure: OVERFLOW for `refill` and `put`, `fault UNDEFINED` for the others. -/

/-- `refill(b)` (R101). -/
def Engine.refill (e : Engine) (b : Byte) : Option Engine :=
  if e.count + 8 > cntMax then none
  else
    some { e with
      reg := match e.endian with
        | .be => e.reg <<< 8 ||| widenByte b
        | .le => e.reg ||| widenByte b <<< e.count
      cnt := countOf (e.count + 8) }

/-- The value `take(n)` and `look(n)` return when `CNT >= n` (R102, R103). -/
def Engine.oldest (e : Engine) (n : Nat) : Data :=
  match e.endian with
  | .be => sliceData e.reg (e.count - n) n
  | .le => sliceData e.reg 0 n

/-- The engine without its `n` oldest bits, when `CNT >= n` (R102, R106). -/
def Engine.dropOldest (e : Engine) (n : Nat) : Engine :=
  { e with
    reg := match e.endian with
      | .be => e.reg &&& maskReg (e.count - n)
      | .le => e.reg >>> n
    cnt := countOf (e.count - n) }

/-- `take(n)` (R102). -/
def Engine.take (e : Engine) (n : Nat) : Option (Data × Engine) :=
  if e.count < n then none else some (e.oldest n, e.dropOldest n)

/-- `look(n)` (R103). -/
def Engine.look (e : Engine) (n : Nat) : Option Data :=
  if e.count < n then none else some (e.oldest n)

/-- `put(v, n)` (R104, R105). -/
def Engine.put (e : Engine) (v : Data) (n : Nat) : Option Engine :=
  if e.count + n > cntMax then none
  else
    some { e with
      reg := match e.endian with
        | .be => e.reg <<< n ||| widenData (lowData v n)
        | .le => e.reg ||| widenData (lowData v n) <<< e.count
      cnt := countOf (e.count + n) }

/-- `front_byte()` (R106). -/
def Engine.frontByte (e : Engine) : Option Byte :=
  if e.count < 8 then none
  else
    some (match e.endian with
      | .be => sliceByte e.reg (e.count - 8)
      | .le => sliceByte e.reg 0)

/-- `drop_byte()` (R106). -/
def Engine.dropByte (e : Engine) : Option Engine :=
  if e.count < 8 then none else some (e.dropOldest 8)

/-- `drain_byte()` (R106): `front_byte` then `drop_byte`. -/
def Engine.drainByte (e : Engine) : Option (Byte × Engine) :=
  match e.frontByte, e.dropByte with
  | some b, some e' => some (b, e')
  | _, _ => none

/-- `pad_byte()` (R107; the side is the spec's own choice, log 18). -/
def Engine.padByte (e : Engine) : Option Byte :=
  if e.count = 0 ∨ e.count ≥ 8 then none
  else
    some (match e.endian with
      | .be => sliceByte (e.reg <<< (8 - e.count)) 0
      | .le => sliceByte e.reg 0)

/-- `clear()` (R108). -/
def Engine.clear (e : Engine) : Engine := { e with reg := 0#72, cnt := 0#7 }

/-! ### Lifecycle (44_control) -/

/-- The engine a new lifetime starts with (44_control R210). -/
def Engine.configure (e : Engine) (tier : Tier) (endian : Endian) : Engine :=
  { e.clear with cfgValid := true, tier := tier, endian := endian }

/-- The engine a lifetime ends with (44_control R220, R225). -/
def Engine.unconfigure (e : Engine) : Engine :=
  { e.clear with cfgValid := false, tier := .std, endian := .be }

/-! ### How a command ends (00_scope R9, 30_encoding R80) -/

/-- The state with another engine. -/
def State.withEngine (s : State) (e : Engine) : State := { s with engine := e }

/-- The host has received one more response. -/
def State.answered (s : State) (r : Response) : State :=
  { s with host := { s.host with responses := s.host.responses ++ [r] } }

/-- `respond(status, result)`. -/
def respond (status : Status) (result : Data) (s : State) : Result :=
  .next (s.answered { status := status, result := result })

/-- `raise status`: result 0, every change made before it kept (00_scope R9, 30_encoding R81). -/
def raise (status : Status) (s : State) : Result := respond status 0#64 s

/-- `fault UNDEFINED`: `UB <- 1`, no response, no further step (10_state R28, log 5). -/
def faultUndefined (s : State) : Result :=
  .fault (.undefined (s.withEngine { s.engine with ub := true }))

/-! ### The source port (20_memory R52, R53, R56) -/

/-- The source's answer to the next pull: settled, or the free draw of its own instance (R52; log 1, log 21). -/
def Source.answer (q : Source) : SourceAnswer :=
  match q.script with
  | a :: _ => a
  | [] => if q.deterministic then .eos else Config.sourceDraw q.owner q.pulls

/-- The source after the next pull: a byte is delivered, which nothing can return; EOS consumes no byte (R53, R63). -/
def Source.pulled (q : Source) : Source :=
  { q with
    script := q.script.tail
    pulls := q.pulls + 1
    delivered := match q.answer with
      | .byte b => q.delivered ++ [b]
      | .eos => q.delivered
      | .never => q.delivered }

/-- The answers to the next `k` pulls. -/
def Source.answers : Nat → Source → List SourceAnswer
  | 0, _ => []
  | k + 1, q => q.answer :: Source.answers k q.pulled

/-- The source after the next `k` pulls. -/
def Source.after : Nat → Source → Source
  | 0, q => q
  | k + 1, q => Source.after k q.pulled

/-- The state after one source transaction. -/
def State.pulled (s : State) : State := { s with source := s.source.pulled }

/-! ### The sink port (20_memory R54, R55, R56) -/

/-- The sink's answer to the next offer: settled, or the free draw of its own instance (R55; log 2, log 21). -/
def Sink.answer (q : Sink) : SinkAnswer :=
  match q.script with
  | a :: _ => a
  | [] => if q.deterministic then .accept else Config.sinkDraw q.owner q.offers

/-- The sink after byte `b` is offered: appended if accepted, else not (R54). -/
def Sink.offered (q : Sink) (b : Byte) : Sink :=
  { q with
    script := q.script.tail
    offers := q.offers + 1
    bytes := match q.answer with
      | .accept => q.bytes ++ [b]
      | .refuse => q.bytes
      | .never => q.bytes }

/-- The answers to the next `k` offers; they do not depend on the bytes offered. -/
def Sink.answers : Nat → Sink → List SinkAnswer
  | 0, _ => []
  | k + 1, q => q.answer :: Sink.answers k { q with script := q.script.tail, offers := q.offers + 1 }

/-- The sink after the bytes `bs` are offered one by one. -/
def Sink.offeredAll : List Byte → Sink → Sink
  | [], q => q
  | b :: bs, q => Sink.offeredAll bs (q.offered b)

/-- The state after one sink transaction. -/
def State.offered (s : State) (b : Byte) : State := { s with sink := s.sink.offered b }

/-! ### Refills (41_reader R133 to R136) -/

/-- How a refill ends. -/
inductive Fill where
  | done (s : State)       -- DONE
  | eos (s : State)        -- EOS on a mandatory pull
  | overflow (s : State)   -- `refill` raised OVERFLOW (no tier reaches it, 40_accumulator R112; log 15)
  | never                  -- the source never answers (20_memory R56)
deriving DecidableEq, Repr

/-- `k` mandatory pulls, each byte merged before the next pull; it stops at the first EOS (R133). -/
def fillBytes : Nat → State → Fill
  | 0, s => .done s
  | k + 1, s =>
    match s.source.answer with
    | .byte b =>
      match s.engine.refill b with
      | some e => fillBytes k (s.pulled.withEngine e)
      | none => .overflow s.pulled
    | .eos => .eos s.pulled
    | .never => .never

/-- `k` optional pulls; an EOS ends the prefetch silently (R136). -/
def prefetchBytes : Nat → State → Fill
  | 0, s => .done s
  | k + 1, s =>
    match s.source.answer with
    | .byte b =>
      match s.engine.refill b with
      | some e => prefetchBytes k (s.pulled.withEngine e)
      | none => .overflow s.pulled
    | .eos => .done s.pulled
    | .never => .never

/-- What the implementation would like to prefetch next: settled, or the free draw of its own instance (log 4, log 21). -/
def Prefetch.wish (p : Prefetch) : Nat :=
  match p.script with
  | e :: _ => e
  | [] => Config.prefetchDraw p.owner p.draws

/-- The choices after one draw. -/
def Prefetch.drawn (p : Prefetch) : Prefetch := { p with script := p.script.tail, draws := p.draws + 1 }

/-- The bound of R136: `min(BULK_MAX_EXTRA, floor((CNT_MAX - CNT) / 8))`. -/
def State.prefetchBound (s : State) : Nat := min s.prefetch.maxExtra ((cntMax - s.engine.count) / 8)

/-- The draw `e` of R136. -/
def State.prefetchCount (s : State) : Nat := min s.prefetch.wish s.prefetchBound

/-- The optional part of `bulk_fill` (R136). -/
def optionalFill (s : State) : Fill :=
  prefetchBytes s.prefetchCount { s with prefetch := s.prefetch.drawn }

/-- `std_fill(n)` (R133). -/
def stdFill (n : Nat) (s : State) : Fill := fillBytes (s.engine.need n) s

/-- `bulk_fill(n)` (R135, R136): no prefetch when no refill is needed. -/
def bulkFill (n : Nat) (s : State) : Fill :=
  match stdFill n s with
  | .done t => if s.engine.need n > 0 then optionalFill t else .done t
  | .eos t => .eos t
  | .overflow t => .overflow t
  | .never => .never

/-- The refill of the instance's tier (R137, R139). -/
def readerFill (n : Nat) (s : State) : Fill :=
  if s.engine.tier = .std then stdFill n s else bulkFill n s

/-- A validated read's refill, and what follows it: an EOS clears the accumulator and answers END_OF_STREAM (R134). -/
def afterFill (fill : Fill) (k : State → Result) : Result :=
  match fill with
  | .done t => k t
  | .eos t => raise .endOfStream (t.withEngine t.engine.clear)
  | .overflow t => raise .overflow t
  | .never => .fault .sourceNeverAnswers

/-- The common end of READ and READU: take the field and answer it (R137, 42_fast_reader R160). -/
def takeField (n : Nat) (s : State) : Result :=
  match s.engine.take n with
  | some (v, e) => respond .ok v (s.withEngine e)
  | none => faultUndefined s

/-- The end of PEEK: look at the field and answer it (R139). -/
def lookField (n : Nat) (s : State) : Result :=
  match s.engine.look n with
  | some v => respond .ok v s
  | none => faultUndefined s

/-! ### Drain and flush (43_writer R181, R186 to R188) -/

/-- How a drain or a flush ends. -/
inductive Drain where
  | done (s : State)        -- DONE
  | refused (s : State)     -- REFUSED: the byte stays in the accumulator (R182)
  | undefined (s : State)   -- a primitive faulted (no command reaches it, 40_accumulator R112)
  | never                   -- the sink never answers (20_memory R56)
deriving DecidableEq, Repr

/-- `k` full bytes offered, oldest first; it stops at the first refusal (R181). -/
def drainBytes : Nat → State → Drain
  | 0, s => .done s
  | k + 1, s =>
    match s.engine.drainByte with
    | some (b, e) =>
      match s.sink.answer with
      | .accept => drainBytes k ((s.offered b).withEngine e)
      | .refuse => .refused (s.offered b)
      | .never => .never
    | none => .undefined s

/-- `drain_all()` (R181): while `CNT >= 8`, that is `CNT / 8` times. -/
def drainAll (s : State) : Drain := drainBytes (s.engine.count / 8) s

/-- The pad of a flush: nothing if `CNT = 0`, else one padded byte, and `clear` when it is accepted (R186, R188). -/
def padOut (s : State) : Drain :=
  if s.engine.count > 0 then
    match s.engine.padByte with
    | some b =>
      match s.sink.answer with
      | .accept => .done ((s.offered b).withEngine s.engine.clear)
      | .refuse => .refused (s.offered b)
      | .never => .never
    | none => .undefined s
  else .done s

/-- The flush of FLUSH, and CLOSE's inline one: drain, then pad (R186, 44_control R220). -/
def flushAll (s : State) : Drain :=
  match drainAll s with
  | .done t => padOut t
  | .refused t => .refused t
  | .undefined t => .undefined t
  | .never => .never

/-- What follows a drain or a flush: a refusal answers SINK_FAIL (R182). -/
def afterDrain (drain : Drain) (k : State → Result) : Result :=
  match drain with
  | .done t => k t
  | .refused t => raise .sinkFail t
  | .undefined t => faultUndefined t
  | .never => .fault .sinkNeverAnswers

end Sys2Proof.Machine
end

