-- ==== Sys2Proof/Machine/Control.lean ====
section
/-! DEFINITION. Lifecycle and introspection: OPEN, CLOSE, DISCARD, AVAIL (44_control). -/

namespace Sys2Proof.Machine

/-- OPEN (44_control R210, R211). -/
def execOpen (tier : Tier) (endian : Endian) (s : State) : Result :=
  if !legal (.openCmd tier endian) s.engine then raise .illegalCommand s
  else respond .ok 0#64 (s.withEngine (s.engine.configure tier endian))

/-- The end of a lifetime that succeeded (44_control R220, R225). -/
def endLifetime (s : State) : Result :=
  respond .ok 0#64 (s.withEngine s.engine.unconfigure)

/-- CLOSE (44_control R220, R221): a writer flushes first, and stays configured if the sink refuses. -/
def execClose (s : State) : Result :=
  if !legal .close s.engine then raise .illegalCommand s
  else if s.engine.tier = .writer then afterDrain (flushAll s) endLifetime
  else endLifetime s

/-- DISCARD (44_control R225): no port transaction. -/
def execDiscard (s : State) : Result :=
  if !legal .discard s.engine then raise .illegalCommand s
  else endLifetime s

/-- AVAIL (44_control R230): `zext_64(CNT)`. -/
def execAvail (s : State) : Result :=
  if !legal .avail s.engine then raise .illegalCommand s
  else respond .ok (s.engine.cnt.setWidth 64) s

end Sys2Proof.Machine
end

