-- ==== Sys2Proof/Machine/FastReader.lean ====
section
/-! DEFINITION. Unchecked reads, FAST tier: READU (42_fast_reader). -/

namespace Sys2Proof.Machine

/-- What follows READU's mandatory pulls: an EOS breaks precondition P2 (42_fast_reader R160, R161). -/
def afterUncheckedFill (fill : Fill) (k : State → Result) : Result :=
  match fill with
  | .done t => k t
  | .eos t => faultUndefined t
  | .overflow t => raise .overflow t
  | .never => .fault .sourceNeverAnswers

/-- READU (42_fast_reader R160): the encoding and the tier are still checked; a width outside 1 to 64 breaks precondition P1. -/
def execReadu (n : Nat) (s : State) : Result :=
  if !legal (.readu n) s.engine then raise .illegalCommand s
  else if !validWidth n then faultUndefined s
  else afterUncheckedFill (stdFill n s) (takeField n)

end Sys2Proof.Machine
end

