-- ==== Sys2Proof/Machine/Reader.lean ====
section
/-! DEFINITION. Validated reads, STD and BULK tiers: READ and PEEK (41_reader). -/

namespace Sys2Proof.Machine

/-- READ (41_reader R137, R138): legality R130, width R131, refill R133 or R136, end of stream R134, `take`. -/
def execRead (n : Nat) (s : State) : Result :=
  if !legal (.read n) s.engine then raise .illegalCommand s
  else if !validWidth n then raise .invalidWidth s
  else afterFill (readerFill n s) (takeField n)

/-- PEEK (41_reader R139, R141): as READ, with `look` in place of `take`. -/
def execPeek (n : Nat) (s : State) : Result :=
  if !legal (.peek n) s.engine then raise .illegalCommand s
  else if !validWidth n then raise .invalidWidth s
  else afterFill (readerFill n s) (lookField n)

end Sys2Proof.Machine
end

