-- ==== Sys2Proof/Machine/Writer.lean ====
section
/-! DEFINITION. Writes and flush, WRITER tier: WRITE and FLUSH (43_writer). -/

namespace Sys2Proof.Machine

/-- WRITE (43_writer R183): legality R180, width R184, capacity R185 (`put` raises OVERFLOW and changes nothing, 40_accumulator R105), then the drain R181. -/
def execWrite (n : Nat) (data : Data) (s : State) : Result :=
  if !legal (.write n data) s.engine then raise .illegalCommand s
  else if !validWidth n then raise .invalidWidth s
  else
    match s.engine.put data n with
    | none => raise .overflow s
    | some e => afterDrain (drainAll (s.withEngine e)) (respond .ok 0#64)

/-- FLUSH (43_writer R186). -/
def execFlush (s : State) : Result :=
  if !legal .flush s.engine then raise .illegalCommand s
  else afterDrain (flushAll s) (respond .ok 0#64)

end Sys2Proof.Machine
end

