-- ==== Sys2Proof/Machine/Dispatch.lean ====
section
/-! DEFINITION. One arm per command, each a direct call of its meaning. -/

namespace Sys2Proof.Machine

def exec (i : Instr) (s : State) : Host.Outcome State Fault Refusal :=
  match i with
  | .openCmd tier endian => Sys2Proof.Machine.execOpen tier endian s
  | .read n => Sys2Proof.Machine.execRead n s
  | .peek n => Sys2Proof.Machine.execPeek n s
  | .readu n => Sys2Proof.Machine.execReadu n s
  | .write n data => Sys2Proof.Machine.execWrite n data s
  | .flush => Sys2Proof.Machine.execFlush s
  | .avail => Sys2Proof.Machine.execAvail s
  | .close => Sys2Proof.Machine.execClose s
  | .discard => Sys2Proof.Machine.execDiscard s

end Sys2Proof.Machine
end

