-- ==== Sys2Proof/Machine/HostPort.lean ====
section
/-! DEFINITION. The host's side: its program and index (10_state R21), the command port (30_encoding R70), reset between commands
(70 R270), and one move of the host carried out whole by the engine (00_scope R5). Machine/Step.lean only calls this file. -/

namespace Sys2Proof.Machine

/-- The host's next move, if its program holds one more (10_state R21). -/
def State.nextMove (s : State) : Option HostMove := s.host.program[s.host.index]?

/-- The host has made its move: its index moves on (10_state R21: the index is the host's, not the engine's). -/
def State.moved (s : State) : State := { s with host := { s.host with index := s.host.index + 1 } }

/-- Reset, applied between commands: the engine's state takes its reset values, and nothing else changes, no flush and no port
transaction (70 R270, R272; log 7, log 9; `UB = 1` never comes here, log 23). -/
def State.resetEngine (s : State) : State := s.withEngine Engine.reset

/-- One command pair on the command port: decode, then run, or answer ILLEGAL_COMMAND with nothing else changed (30_encoding R79,
60_exceptions R242, R244). -/
def issue (cmd : CmdWord) (data : Data) (s : State) : Result :=
  match decode cmd data with
  | .instr i => exec i s
  | .illegal _ => raise .illegalCommand s

/-- One move of the host. A state with `UB = 1` has no step (10_state R28, log 5). DESIGN CHOICE (log 23, safe): that holds for a reset move
too, so a host reset never clears `UB` within a run; 10_state R23 and 70 R270 let reset clear it, R28 gives a faulted run no further step. With
no move left the engine waits on its command port and keeps all its state (70 R271, R284, log 6). -/
def hostMove (s : State) : Result :=
  if s.engine.ub then .fault (.undefined s)
  else
    match s.nextMove with
    | some (.command cmd data) => issue cmd data s.moved
    | some .reset => .next s.moved.resetEngine
    | none => .next s

/-- A program with move `m` at index `k`; a shorter program is filled up to `k` with copies of `m`, which the host has passed already. -/
def setMove (m : HostMove) : Nat → List HostMove → List HostMove
  | 0, [] => [m]
  | 0, _ :: rest => m :: rest
  | k + 1, [] => m :: setMove m k []
  | k + 1, x :: rest => x :: setMove m k rest

/-- The state in which the host's next move is the command pair whose bits are `w`: `CMD` is bits 15 to 0, `DATA` the bits above (log 13). -/
def placeCommand (s : State) (nbits w : Nat) : State :=
  let bits := w % 2 ^ nbits
  let m := HostMove.command (BitVec.ofNat 16 bits) (BitVec.ofNat 64 (bits >>> 16))
  { s with host := { s.host with program := setMove m s.host.index s.host.program } }

end Sys2Proof.Machine
end

