-- ==== Sys2Proof/Machine/Step.lean ====
section
/-! DEFINITION. One step of the machine, and the host's question about a placed instruction; both only call Machine/HostPort.lean. -/

namespace Sys2Proof.Machine

/-- One step: one move of the host, carried out whole (00_scope R5, 10_state R21; log 17, log 19). -/
def step (s : State) : Host.Outcome State Fault Refusal := hostMove s

/-- `s` with the command pair whose bits are `w` as the host's next move (log 8, log 13). -/
def State.withFetchWord (s : State) (nbits w : Nat) : State := placeCommand s nbits w

end Sys2Proof.Machine
end

