-- ==== Sys2Proof/Machine/Assembler.lean ====
section
/-! DEFINITION. The text syntax of 30_encoding R82: one command a line, a comment from ';' on, mnemonics case-insensitive. Text is a list of
characters. There are no pseudo-instructions. -/

namespace Sys2Proof.Machine

/-- A line without its comment (30_encoding R82). -/
def asmCode : List Char → List Char
  | [] => []
  | c :: rest => if c = ';' then [] else c :: asmCode rest

/-- White space between tokens. -/
def asmBlank (c : Char) : Bool := c == ' ' || c == '\t' || c == '\r'

/-- A token added to the rest, if it holds a character. -/
def asmEmit (word : List Char) (rest : List (List Char)) : List (List Char) :=
  if word.isEmpty then rest else word :: rest

/-- The tokens of a line: words, and each comma by itself. `word` is the word being read. -/
def asmTokens (word : List Char) : List Char → List (List Char)
  | [] => asmEmit word []
  | c :: rest =>
    if asmBlank c then asmEmit word (asmTokens [] rest)
    else if c = ',' then asmEmit word ([','] :: asmTokens [] rest)
    else asmTokens (word ++ [c]) rest

/-- The value of a digit, as a number below 16. -/
def asmDigit (c : Char) : Option Nat :=
  let k := c.toNat
  if 48 ≤ k ∧ k ≤ 57 then some (k - 48)
  else if 97 ≤ k ∧ k ≤ 102 then some (k - 87)
  else if 65 ≤ k ∧ k ≤ 70 then some (k - 55)
  else none

/-- Digits in a base, most significant first, after a value already read. -/
def asmDigits (base : Nat) (value : Nat) : List Char → Option Nat
  | [] => some value
  | c :: rest =>
    match asmDigit c with
    | some d => if d < base then asmDigits base (value * base + d) rest else none
    | none => none

/-- At least one digit in a base. -/
def asmNumeral (base : Nat) (cs : List Char) : Option Nat :=
  if cs.isEmpty then none else asmDigits base 0 cs

/-- `<value>`: decimal, `0x` hexadecimal or `0b` binary, below 2^64 (30_encoding R82). -/
def asmValue (cs : List Char) : Option Data :=
  let number :=
    match cs with
    | '0' :: 'x' :: rest => asmNumeral 16 rest
    | '0' :: 'b' :: rest => asmNumeral 2 rest
    | _ => asmNumeral 10 cs
  match number with
  | some v => if v < 2 ^ 64 then some (BitVec.ofNat 64 v) else none
  | none => none

/-- `<n>`: a decimal number from 0 to 127 (30_encoding R82). -/
def asmWidth (cs : List Char) : Option Nat :=
  match asmNumeral 10 cs with
  | some v => if v < 128 then some v else none
  | none => none

/-- `<tier>` (30_encoding R82), as written there (log 16). -/
def asmTier : List Char → Option Tier
  | ['S', 'T', 'D'] => some .std
  | ['B', 'U', 'L', 'K'] => some .bulk
  | ['F', 'A', 'S', 'T'] => some .fast
  | ['W', 'R', 'I', 'T', 'E', 'R'] => some .writer
  | _ => none

/-- `<end>` (30_encoding R82), as written there (log 16). -/
def asmEndian : List Char → Option Endian
  | ['B', 'E'] => some .be
  | ['L', 'E'] => some .le
  | _ => none

/-- A letter in upper case: mnemonics are case-insensitive (30_encoding R82). -/
def asmUpper (c : Char) : Char :=
  if 97 ≤ c.toNat ∧ c.toNat ≤ 122 then Char.ofNat (c.toNat - 32) else c

/-- One mnemonic of 30_encoding R82 with its operand tokens. -/
def asmCommand (mnemonic : List Char) (operands : List (List Char)) : Option Instr :=
  match mnemonic, operands with
  | ['O', 'P', 'E', 'N'], [t, [','], e] =>
    match asmTier t, asmEndian e with
    | some tier, some endian => some (.openCmd tier endian)
    | _, _ => none
  | ['R', 'E', 'A', 'D'], [n] => (asmWidth n).map .read
  | ['P', 'E', 'E', 'K'], [n] => (asmWidth n).map .peek
  | ['R', 'E', 'A', 'D', 'U'], [n] => (asmWidth n).map .readu
  | ['W', 'R', 'I', 'T', 'E'], [n, [','], v] =>
    match asmWidth n, asmValue v with
    | some width, some value => some (.write width value)
    | _, _ => none
  | ['F', 'L', 'U', 'S', 'H'], [] => some .flush
  | ['A', 'V', 'A', 'I', 'L'], [] => some .avail
  | ['C', 'L', 'O', 'S', 'E'], [] => some .close
  | ['D', 'I', 'S', 'C', 'A', 'R', 'D'], [] => some .discard
  | _, _ => none

/-- What a line of text is. -/
inductive AsmLine where
  | blank              -- nothing but white space or a comment
  | command (i : Instr)
  | wrong              -- not a line of the syntax
deriving DecidableEq, Repr

/-- One line (30_encoding R82). -/
def asmLine (line : List Char) : AsmLine :=
  match asmTokens [] (asmCode line) with
  | [] => .blank
  | mnemonic :: operands =>
    match asmCommand (mnemonic.map asmUpper) operands with
    | some i => .command i
    | none => .wrong

/-- A program text, line by line: the host's moves (10_state R21), or nothing if a line is wrong. -/
def assemble : List (List Char) → Option (List HostMove)
  | [] => some []
  | line :: rest =>
    match asmLine line, assemble rest with
    | .blank, some moves => some moves
    | .command i, some moves => some (.command (encodeCmd i) (encodeData i) :: moves)
    | _, _ => none

end Sys2Proof.Machine
end

