-- ==== Sys2Proof/Machine/Platform.lean ====
section
/-! DEFINITION. A platform of `INSTANCES` engine instances (00_scope R7, 60_exceptions R255): each has its own state, command port, source
port and sink port, and they share nothing (log 11, log 21). -/

namespace Sys2Proof.Machine

/-- The instances of a platform, by number. The numbers are the platform's: the engine holds none, so no instance sees one (60_exceptions
R255). -/
abbrev Platform := List State

/-- Every instance at reset, each with draws and a `BULK_MAX_EXTRA` of its own, of which nothing is known and nothing relates two
(00_scope R7, 60_exceptions R255; that the parameter is not shared is DESIGN CHOICE, log 21). -/
def Platform.reset : Platform := (List.range Config.instances).map State.resetOf

/-- The step of instance `k`: that instance alone moves. `none` where there is no such instance. Where instance `k` has no step (10_state R28,
20_memory R56) this one ends in a fault that names `k` and the reason, and there is no next platform (DESIGN CHOICE, log 22: the spec does not
say what a platform does then). Every other instance still has its own step from the same platform. -/
def Platform.stepAt (k : Nat) (p : Platform) : Option (Host.Outcome Platform (Nat × Fault) Refusal) :=
  match p[k]? with
  | none => none
  | some s =>
    match step s with
    | .next t => some (.next (p.set k t))
    | .fault r => some (.fault (k, r))
    | .refused r => some (.refused r)

end Sys2Proof.Machine
end

