-- ==== Sys2Proof/Safety.lean ====
section
/-! DEFINITION. The terms claims are stated in: the accumulator invariant (10_state R25, R26), the configuration invariant (R24), the whole
invariant of a run, and a run's final state (70 R284). -/

namespace Sys2Proof.Machine

/-- 10_state R25 and R26: `CNT <= 71` and every bit of `REG` at or above `CNT` is 0. -/
abbrev Engine.AccOk (e : Engine) : Prop := e.count ≤ cntMax ∧ e.reg.toNat < 2 ^ e.count

/-- 10_state R24 and the lifecycle rules: an unconfigured instance holds `TIER = 0`, `END = 0` and an empty accumulator. -/
abbrev Engine.IdleOk (e : Engine) : Prop :=
  e.cfgValid = false → e.tier = .std ∧ e.endian = .be ∧ e.reg = 0#72 ∧ e.cnt = 0#7

/-- What every step keeps: the accumulator, the idle configuration, `UB = 0` (10_state R28: set only in a faulted run), and the host's
index within its program (10_state R21). -/
abbrev State.Inv (s : State) : Prop :=
  s.engine.AccOk ∧ s.engine.IdleOk ∧ s.engine.ub = false ∧ s.host.index ≤ s.host.program.length

/-- A primitive leaves the configuration and `UB` as they were (10_state R24). -/
abbrev Engine.SameConfig (e f : Engine) : Prop :=
  f.cfgValid = e.cfgValid ∧ f.tier = e.tier ∧ f.endian = e.endian ∧ f.ub = e.ub

/-- The instance is configured in a tier (00_scope R2). -/
abbrev Engine.Is (e : Engine) (tier : Tier) : Prop := e.cfgValid = true ∧ e.tier = tier

/-- The bytes received before the first answer that is none: what an optional prefetch merges (41_reader R136). -/
def leadingBytes : List SourceAnswer → List Byte
  | .byte b :: rest => b :: leadingBytes rest
  | _ => []

/-- The legality matrix of 60_exceptions R243, row by row. -/
abbrev LegalIn : Instr → Engine → Prop
  | .openCmd _ _, e => e.cfgValid = false
  | .read _, e => e.cfgValid = true ∧ (e.tier = .std ∨ e.tier = .bulk)
  | .peek _, e => e.cfgValid = true ∧ (e.tier = .std ∨ e.tier = .bulk)
  | .readu _, e => e.cfgValid = true ∧ e.tier = .fast
  | .write _ _, e => e.cfgValid = true ∧ e.tier = .writer
  | .flush, e => e.cfgValid = true ∧ e.tier = .writer
  | .avail, e => e.cfgValid = true
  | .close, e => e.cfgValid = true
  | .discard, e => e.cfgValid = true

/-- The commands of a list one after another (20_memory R65); it stops where one does. -/
def runAll : List Instr → State → Result
  | [], s => .next s
  | i :: rest, s =>
    match exec i s with
    | .next t => runAll rest t
    | .fault r => .fault r
    | .refused r => .refused r

/-- A field to write: its width and its value. -/
abbrev Field := Nat × Data

/-- The bits in all the fields together. -/
def totalWidth (fields : List Field) : Nat := (fields.map Prod.fst).sum

/-- Every width is one a validated tier accepts (00_scope R7). -/
abbrev widthsOk (fields : List Field) : Prop := ∀ f ∈ fields, 1 ≤ f.1 ∧ f.1 ≤ 64

/-- The WRITEs of the fields, then a FLUSH. -/
def writeProgram (fields : List Field) : List Instr := fields.map (fun f => .write f.1 f.2) ++ [.flush]

/-- The reads of the fields' widths in a reader tier: READ, or READU in the FAST tier. -/
def readProgram (tier : Tier) (fields : List Field) : List Instr :=
  fields.map (fun f => if tier = .fast then .readu f.1 else .read f.1)

/-- An STD reader and a BULK reader of one deterministic stream, the BULK one `ahead` bytes further in the source (41_reader R143): the same
responses so far, and the same unread bits. -/
abbrev BulkAhead (s b : State) (ahead rest : List Byte) : Prop :=
  s.engine.Is .std ∧ b.engine.Is .bulk ∧ s.engine.endian = b.engine.endian ∧ s.engine.AccOk ∧ b.engine.AccOk ∧
  b.engine.window = s.engine.window ++ streamBits s.engine.endian ahead ∧
  s.source.script = (ahead ++ rest).map SourceAnswer.byte ∧ s.source.deterministic = true ∧
  b.source.script = rest.map SourceAnswer.byte ∧ b.source.deterministic = true ∧
  s.host.responses = b.host.responses

/-- The run has ended: the last move of the program is made, and the run is not faulted (70 R284). -/
abbrev State.Final (s : State) : Prop := s.nextMove = none ∧ s.engine.ub = false

end Sys2Proof.Machine
end

