-- ==== Sys2Proof/Certificates/Slice0/Obligations.lean ====
section
/-! DEFINITION. The statements for the provers. Each docstring names the rule of spec/ that the statement formalises; OBLIGATIONS.json lists
them. `s.source.answers k` is what the source answers to the next `k` pulls and `s.source.after k` the source afterwards; `s.sink.answers k`
and `s.sink.offeredAll bs` are the same for the sink. -/

open Sys2Proof Sys2Proof.Machine

/-! ### Reset, the host's moves, the step -/

/-- 70 R270, 10_state R23: the reset values of the engine, and the notional CONFIG register is 0. -/
def Obligations.ResetValues : Prop :=
  State.reset.engine = { cfgValid := false, tier := .std, endian := .be, reg := 0#72, cnt := 0#7, ub := false } ∧
    State.reset.engine.config = 0#4 ∧ State.reset.engine.accState = .empty

/-- The invariant of `StepKeepsInvariant` holds at reset. -/
def Obligations.ResetMeetsInvariant : Prop := State.reset.Inv

/-- 70 R271: after reset the only legal command is OPEN. -/
def Obligations.AfterResetOnlyOpenIsLegal : Prop :=
  ∀ (i : Instr) (s : State), s.engine = Engine.reset →
    (∃ tier endian, i = .openCmd tier endian) ∨ exec i s = .next (s.answered ⟨.illegalCommand, 0#64⟩)

/-- 70 R270, R272: reset does not flush: every piece of the engine takes its reset value, pending bits are lost, no port transaction is made, no
response is given. That reset is a host move which moves the host's index on is log 7, and that the records of the agents are kept is log 9
(both DEDUCED). With `UB = 1` the move is not carried out, the model's choice (log 23): see `FaultedRunHasNoStep`. -/
def Obligations.HostResetLosesPendingBits : Prop :=
  ∀ s : State, s.engine.ub = false → s.nextMove = some .reset →
    step s = .next { s with
      engine := { cfgValid := false, tier := .std, endian := .be, reg := 0#72, cnt := 0#7, ub := false }
      host := { s.host with index := s.host.index + 1 } }

/-- A step runs the decoded instruction, the host's index moved past the command (10_state R21). -/
def Obligations.StepRunsDecodedInstruction : Prop :=
  ∀ (s : State) (cmd : CmdWord) (data : Data) (i : Instr),
    s.engine.ub = false → s.host.program[s.host.index]? = some (.command cmd data) → decode cmd data = .instr i →
      step s = exec i { s with host := { s.host with index := s.host.index + 1 } }

/-- The model's choice (log 6), from 70 R271: with no command issued the engine waits and keeps all its state. -/
def Obligations.StepWaitsForCommand : Prop :=
  ∀ s : State, s.engine.ub = false → s.host.program[s.host.index]? = none → step s = .next s

/-- 10_state R28: a faulted run has no further step. That the step is a fault is log 5, and that a reset move is no exception to it is the
model's choice (log 23). -/
def Obligations.FaultedRunHasNoStep : Prop :=
  ∀ s : State, s.engine.ub = true → ∃ t : State, t.engine.ub = true ∧ step s = .fault (.undefined t)

/-! ### Decoding and encoding -/

/-- 30_encoding R75, R76, R78: a word with a reserved bit, a reserved opcode or a nonzero unused field answers ILLEGAL_COMMAND and changes
nothing of the engine and the ports, in every state. The fields are those of R71. -/
def Obligations.MalformedWordIsIllegal : Prop :=
  ∀ (s : State) (cmd : CmdWord) (data : Data),
    s.engine.ub = false → s.nextMove = some (.command cmd data) →
    (cmd.extractLsb' 14 2 ≠ 0#2 ∨
      (cmd.extractLsb' 0 4 = 0x0#4 ∨ cmd.extractLsb' 0 4 ≥ 0xA#4) ∨
      (cmd.extractLsb' 0 4 = 0x1#4 ∧ cmd.extractLsb' 4 7 ≠ 0#7) ∨
      ((cmd.extractLsb' 0 4 = 0x2#4 ∨ cmd.extractLsb' 0 4 = 0x3#4 ∨ cmd.extractLsb' 0 4 = 0x4#4 ∨ cmd.extractLsb' 0 4 = 0x5#4) ∧
        (cmd.extractLsb' 11 2 ≠ 0#2 ∨ cmd.extractLsb' 13 1 ≠ 0#1)) ∨
      ((cmd.extractLsb' 0 4 = 0x6#4 ∨ cmd.extractLsb' 0 4 = 0x7#4 ∨ cmd.extractLsb' 0 4 = 0x8#4 ∨ cmd.extractLsb' 0 4 = 0x9#4) ∧
        (cmd.extractLsb' 4 7 ≠ 0#7 ∨ cmd.extractLsb' 11 2 ≠ 0#2 ∨ cmd.extractLsb' 13 1 ≠ 0#1))) →
    step s = .next ({ s with host := { s.host with index := s.host.index + 1 } }.answered ⟨.illegalCommand, 0#64⟩)

/-- 30_encoding R85: a word that decodes to a command is selected by exactly one row of the opcode map, its own; a word that decodes to none
is selected by no row. -/
def Obligations.OpcodeMapSelectsCommands : Prop :=
  ∀ (cmd : CmdWord) (data : Data),
    (∀ i, decode cmd data = .instr i → opcodeRows.filter (fun row => cmd &&& row.2 == row.1) = [rowOf i]) ∧
    (∀ why, decode cmd data = .illegal why → opcodeRows.filter (fun row => cmd &&& row.2 == row.1) = [])

/-- 30_encoding R71 to R74: decoding what was encoded gives the instruction back, every operand at every value the encoding admits. -/
def Obligations.DecodeOfEncode : Prop :=
  ∀ i : Instr, i.WellFormed → decode (encodeCmd i) (encodeData i) = .instr i

/-- 30_encoding R79: each word has one meaning: a word that decodes is the encoding of what it decodes to, and that is well formed. -/
def Obligations.EncodeOfDecode : Prop :=
  ∀ (cmd : CmdWord) (data : Data) (i : Instr), decode cmd data = .instr i → encodeCmd i = cmd ∧ i.WellFormed

/-- 30_encoding R85 and 95 section 2: words written out by the spec, one or more of every mnemonic, and words it calls illegal. -/
def Obligations.SpecWordsDecode : Prop :=
  decode 0x3801#16 0#64 = .instr (.openCmd .writer .le) ∧ decode 0x0001#16 0#64 = .instr (.openCmd .std .be) ∧
  decode 0x0042#16 0#64 = .instr (.read 4) ∧ decode 0x0402#16 0#64 = .instr (.read 64) ∧ decode 0x0412#16 0#64 = .instr (.read 65) ∧
  decode 0x0043#16 0#64 = .instr (.peek 4) ∧ decode 0x0404#16 0#64 = .instr (.readu 64) ∧
  decode 0x0055#16 0x15#64 = .instr (.write 5 0x15#64) ∧ decode 0x0006#16 0#64 = .instr .flush ∧
  decode 0x0007#16 0#64 = .instr .avail ∧ decode 0x0008#16 0#64 = .instr .close ∧ decode 0x0009#16 0#64 = .instr .discard ∧
  decode 0x0000#16 0#64 = .illegal .reservedOpcode ∧ decode 0x4002#16 0#64 = .illegal .reservedBits ∧
  decode 0x2042#16 0#64 = .illegal .unusedField

/-- The placed command is the one the next step runs (log 8, log 13). -/
def Obligations.PlacedCommandRunsNext : Prop :=
  ∀ (s : State) (nbits w : Nat) (i : Instr), s.engine.ub = false → decodeTableWord nbits w = some i →
    step (s.withFetchWord nbits w) = exec i (s.withFetchWord nbits w).moved

/-- 30_encoding R82: lines of the assembler text and the commands they spell; a comment line is blank; a width of 128 is refused. The line
`WRITE 8,0xFf` rests on the model's choice of log 16 as well: hexadecimal digits of both cases, and no blank needed after the comma. -/
def Obligations.AssemblerSpellsCommands : Prop :=
  asmLine ['O', 'P', 'E', 'N', ' ', 'W', 'R', 'I', 'T', 'E', 'R', ',', ' ', 'L', 'E'] = .command (.openCmd .writer .le) ∧
  asmLine ['r', 'e', 'a', 'd', ' ', '6', '5', ' ', ';', 'x'] = .command (.read 65) ∧
  asmLine ['W', 'R', 'I', 'T', 'E', ' ', '5', ',', ' ', '0', 'b', '1', '0', '1'] = .command (.write 5 5#64) ∧
  asmLine ['W', 'R', 'I', 'T', 'E', ' ', '8', ',', '0', 'x', 'F', 'f'] = .command (.write 8 255#64) ∧
  asmLine ['D', 'i', 's', 'c', 'a', 'r', 'd'] = .command .discard ∧
  asmLine [';', ' ', 'R', 'E', 'A', 'D'] = .blank ∧
  asmLine ['P', 'E', 'E', 'K', ' ', '1', '2', '8'] = .wrong

/-- 30_encoding R77: DATA is read only by WRITE, and WRITE uses only its `n` low bits. -/
def Obligations.OnlyWriteReadsData : Prop :=
  (∀ (n : Nat) (d d' : Data) (s : State), (∀ k, k < n → d.getLsbD k = d'.getLsbD k) → exec (.write n d) s = exec (.write n d') s) ∧
  (∀ (cmd : CmdWord) (d d' : Data), cmd.extractLsb' 0 4 ≠ 0x5#4 → decode cmd d = decode cmd d')

/-! ### Legality and lifecycle -/

/-- 60_exceptions R243: outside its states a command answers ILLEGAL_COMMAND with no effect; inside them it runs its rule, and never answers
ILLEGAL_COMMAND. -/
def Obligations.LegalityMatrix : Prop :=
  ∀ (i : Instr) (s : State),
    (¬ LegalIn i s.engine → exec i s = .next (s.answered ⟨.illegalCommand, 0#64⟩)) ∧
    (LegalIn i s.engine → ∀ t, exec i s = .next t → t.host.responses.getLast? ≠ some ⟨.illegalCommand, 0#64⟩)

/-- 44_control R210, R211: OPEN configures an unconfigured instance and empties the accumulator; on a configured one it changes nothing. -/
def Obligations.OpenConfigures : Prop :=
  ∀ (tier : Tier) (endian : Endian) (s : State),
    (s.engine.cfgValid = false → exec (.openCmd tier endian) s = .next ({ s with
      engine := { cfgValid := true, tier := tier, endian := endian, reg := 0#72, cnt := 0#7, ub := s.engine.ub } }.answered ⟨.ok, 0#64⟩)) ∧
    (s.engine.cfgValid = true → exec (.openCmd tier endian) s = .next (s.answered ⟨.illegalCommand, 0#64⟩))

/-- 44_control R230: AVAIL answers CNT, at any value, and changes nothing; unconfigured it is illegal. -/
def Obligations.AvailAnswersCount : Prop :=
  ∀ s : State,
    (s.engine.cfgValid = true → exec .avail s = .next (s.answered ⟨.ok, BitVec.ofNat 64 s.engine.cnt.toNat⟩)) ∧
    (s.engine.cfgValid = false → exec .avail s = .next (s.answered ⟨.illegalCommand, 0#64⟩))

/-- 44_control R225: DISCARD unconfigures and loses every bit with no port transaction; unconfigured it is illegal. -/
def Obligations.DiscardDropsBits : Prop :=
  ∀ s : State,
    (s.engine.cfgValid = true → exec .discard s = .next ({ s with
      engine := { cfgValid := false, tier := .std, endian := .be, reg := 0#72, cnt := 0#7, ub := s.engine.ub } }.answered ⟨.ok, 0#64⟩)) ∧
    (s.engine.cfgValid = false → exec .discard s = .next (s.answered ⟨.illegalCommand, 0#64⟩))

/-- 44_control R220, reader tiers: CLOSE discards the buffered bits, unconfigures, and makes no port transaction. -/
def Obligations.CloseOfReaderDropsBits : Prop :=
  ∀ s : State, s.engine.cfgValid = true → s.engine.tier ≠ .writer →
    exec .close s = .next ({ s with
      engine := { cfgValid := false, tier := .std, endian := .be, reg := 0#72, cnt := 0#7, ub := s.engine.ub } }.answered ⟨.ok, 0#64⟩)

/-- 60_exceptions R245 (41_reader R131, 43_writer R184): a width of 0 or above 64 in a validated command answers INVALID_WIDTH, whatever
`CNT` is and whatever the ports would answer, and changes nothing. -/
def Obligations.InvalidWidthChangesNothing : Prop :=
  ∀ (n : Nat) (d : Data) (s : State), n = 0 ∨ 64 < n →
    (LegalIn (.read n) s.engine → exec (.read n) s = .next (s.answered ⟨.invalidWidth, 0#64⟩)) ∧
    (LegalIn (.peek n) s.engine → exec (.peek n) s = .next (s.answered ⟨.invalidWidth, 0#64⟩)) ∧
    (LegalIn (.write n d) s.engine → exec (.write n d) s = .next (s.answered ⟨.invalidWidth, 0#64⟩))

/-! ### The accumulator -/

/-- 40_accumulator R110: the accumulator is a first-in, first-out bit queue, primitive by primitive, for every legal accumulator. -/
def Obligations.AccumulatorIsFifoQueue : Prop :=
  ∀ e : Engine, e.AccOk →
    (∀ b f, e.refill b = some f → f.window = e.window ++ byteBits e.endian b) ∧
    (∀ n v f, 1 ≤ n → n ≤ 64 → e.take n = some (v, f) → fieldBits e.endian n v = e.window.take n ∧ f.window = e.window.drop n) ∧
    (∀ n v, 1 ≤ n → n ≤ 64 → e.look n = some v → fieldBits e.endian n v = e.window.take n) ∧
    (∀ n v f, 1 ≤ n → n ≤ 64 → e.put v n = some f →
      f.window = e.window ++ fieldBits e.endian n (BitVec.ofNat 64 (v.toNat % 2 ^ n))) ∧
    (∀ b f, e.drainByte = some (b, f) → byteBits e.endian b = e.window.take 8 ∧ f.window = e.window.drop 8) ∧
    (∀ b, e.padByte = some b → byteBits e.endian b = e.window ++ List.replicate (8 - e.count) false) ∧
    e.clear.window = []

/-- 40_accumulator R101 to R107: exactly when each primitive fails, for every value of CNT the register can hold. -/
def Obligations.PrimitivePreconditions : Prop :=
  ∀ (e : Engine) (b : Byte) (v : Data) (n : Nat),
    (e.refill b = none ↔ e.cnt.toNat > 63) ∧ (e.take n = none ↔ e.cnt.toNat < n) ∧ (e.look n = none ↔ e.cnt.toNat < n) ∧
    (e.put v n = none ↔ e.cnt.toNat + n > 71) ∧ (e.frontByte = none ↔ e.cnt.toNat < 8) ∧ (e.dropByte = none ↔ e.cnt.toNat < 8) ∧
    (e.padByte = none ↔ e.cnt.toNat = 0 ∨ e.cnt.toNat ≥ 8)

/-- 20_memory R59: a 64-bit field is its eight bytes, most significant first under BE, least significant first under LE. -/
def Obligations.WideFieldByteOrder : Prop :=
  ∀ v : Data,
    fieldBits .be 64 v = streamBits .be ((List.range 8).map fun k => v.extractLsb' (8 * (7 - k)) 8) ∧
    fieldBits .le 64 v = streamBits .le ((List.range 8).map fun k => v.extractLsb' (8 * k) 8)

/-! ### Validated and unchecked reads -/

/-- 41_reader R137, 20_memory R58 (STD): when the source answers the mandatory pulls with the bytes `bs`, READ returns the field whose bits
are the next `n` bits of the stream, consumes them, and changes nothing else. -/
def Obligations.StdReadTakesNextBits : Prop :=
  ∀ (n : Nat) (s : State) (bs : List Byte), s.engine.Is .std → 1 ≤ n → n ≤ 64 → s.engine.AccOk →
    s.source.answers (s.engine.need n) = bs.map SourceAnswer.byte →
    ∃ (v : Data) (e : Engine),
      exec (.read n) s = .next ({ s with engine := e, source := s.source.after (s.engine.need n) }.answered ⟨.ok, v⟩) ∧
      fieldBits s.engine.endian n v ++ e.window = s.engine.window ++ streamBits s.engine.endian bs ∧ v.toNat < 2 ^ n ∧
      e.count + n = s.engine.count + 8 * bs.length ∧ e.AccOk ∧ s.engine.SameConfig e ∧
      (s.source.after (s.engine.need n)).delivered = s.source.delivered ++ bs

/-- 41_reader R139, R140 (STD): PEEK returns the same field as READ would, and consumes no bit. -/
def Obligations.StdPeekShowsNextBits : Prop :=
  ∀ (n : Nat) (s : State) (bs : List Byte), s.engine.Is .std → 1 ≤ n → n ≤ 64 → s.engine.AccOk →
    s.source.answers (s.engine.need n) = bs.map SourceAnswer.byte →
    ∃ (v : Data) (e : Engine),
      exec (.peek n) s = .next ({ s with engine := e, source := s.source.after (s.engine.need n) }.answered ⟨.ok, v⟩) ∧
      fieldBits s.engine.endian n v = e.window.take n ∧ v.toNat < 2 ^ n ∧
      e.window = s.engine.window ++ streamBits s.engine.endian bs ∧
      e.count = s.engine.count + 8 * bs.length ∧ e.AccOk ∧ s.engine.SameConfig e ∧
      (s.source.after (s.engine.need n)).delivered = s.source.delivered ++ bs

/-- 41_reader R136, R138, R141, 60_exceptions R259 (BULK), a refill needed: after the mandatory bytes `bs`, the draw `m` (bounded as R136 says,
for every value of BULK_MAX_EXTRA) allows optional pulls; the bytes `extra` before the first EOS are merged, and the EOS is silent: it is
pulled, and nothing after it, so that exactly `j` optional pulls are made; READ and PEEK return the next `n` bits. -/
def Obligations.BulkReadPrefetches : Prop :=
  ∀ (n : Nat) (s : State) (bs extra : List Byte) (k m j : Nat), s.engine.Is .bulk → 1 ≤ n → n ≤ 64 → s.engine.AccOk →
    s.engine.count < n → k = s.engine.need n → s.source.answers k = bs.map SourceAnswer.byte →
    m = min s.prefetch.wish (min s.prefetch.maxExtra ((71 - (s.engine.count + 8 * k)) / 8)) →
    (∀ a ∈ (s.source.after k).answers m, a ≠ .never) → extra = leadingBytes ((s.source.after k).answers m) →
    j = min m (extra.length + 1) →
    ∃ (v : Data) (f e : Engine),
      exec (.read n) s = .next ({ s with
        engine := f, source := s.source.after (k + j), prefetch := s.prefetch.drawn }.answered ⟨.ok, v⟩) ∧
      exec (.peek n) s = .next ({ s with
        engine := e, source := s.source.after (k + j), prefetch := s.prefetch.drawn }.answered ⟨.ok, v⟩) ∧
      e.window = s.engine.window ++ streamBits s.engine.endian (bs ++ extra) ∧
      fieldBits s.engine.endian n v ++ f.window = e.window ∧ v.toNat < 2 ^ n ∧
      e.AccOk ∧ f.AccOk ∧ s.engine.SameConfig e ∧ s.engine.SameConfig f ∧
      (s.source.after (k + j)).delivered = s.source.delivered ++ bs ++ extra

/-- 41_reader R136 (BULK), no refill needed: no pull, no prefetch and no draw; READ takes and PEEK shows the oldest bits. -/
def Obligations.BulkReadWithoutRefill : Prop :=
  ∀ (n : Nat) (s : State), s.engine.Is .bulk → 1 ≤ n → n ≤ 64 → s.engine.AccOk → n ≤ s.engine.count →
    ∃ (v : Data) (f : Engine),
      exec (.read n) s = .next ({ s with engine := f }.answered ⟨.ok, v⟩) ∧ exec (.peek n) s = .next (s.answered ⟨.ok, v⟩) ∧
      fieldBits s.engine.endian n v ++ f.window = s.engine.window ∧ v.toNat < 2 ^ n ∧ f.AccOk ∧ s.engine.SameConfig f

/-- 41_reader R134, 60_exceptions R246: an EOS answered to a mandatory pull empties the accumulator, in READ and in PEEK, STD and BULK; the
bytes delivered before it stay consumed; the configuration stays, so the instance stays usable. -/
def Obligations.EndOfStreamClears : Prop :=
  ∀ (n : Nat) (s : State) (bs : List Byte) (rest : List SourceAnswer), s.engine.Is .std ∨ s.engine.Is .bulk → 1 ≤ n → n ≤ 64 →
    s.source.answers (s.engine.need n) = bs.map SourceAnswer.byte ++ .eos :: rest →
    exec (.read n) s = .next ({ s with
      engine := { s.engine with reg := 0#72, cnt := 0#7 }, source := s.source.after (bs.length + 1) }.answered ⟨.endOfStream, 0#64⟩) ∧
    exec (.peek n) s = .next ({ s with
      engine := { s.engine with reg := 0#72, cnt := 0#7 }, source := s.source.after (bs.length + 1) }.answered ⟨.endOfStream, 0#64⟩) ∧
    (s.source.after (bs.length + 1)).delivered = s.source.delivered ++ bs

/-- 20_memory R56, 70 R277: a pull that the source never answers, be it mandatory (READ, PEEK, READU) or, after all the mandatory bytes `bs`,
one of the `m` optional pulls of the BULK tier's draw (READ, PEEK): the command never completes (the model's named stop, log 3). -/
def Obligations.UnansweredPullHangs : Prop :=
  (∀ (n : Nat) (s : State) (bs : List Byte) (rest : List SourceAnswer), s.engine.cfgValid = true → 1 ≤ n → n ≤ 64 →
    s.source.answers (s.engine.need n) = bs.map SourceAnswer.byte ++ .never :: rest →
    (s.engine.tier = .std ∨ s.engine.tier = .bulk →
      exec (.read n) s = .fault .sourceNeverAnswers ∧ exec (.peek n) s = .fault .sourceNeverAnswers) ∧
    (s.engine.tier = .fast → exec (.readu n) s = .fault .sourceNeverAnswers)) ∧
  (∀ (n : Nat) (s : State) (bs extra : List Byte) (rest : List SourceAnswer) (k m : Nat), s.engine.Is .bulk → 1 ≤ n → n ≤ 64 →
    s.engine.count < n → k = s.engine.need n → s.source.answers k = bs.map SourceAnswer.byte →
    m = min s.prefetch.wish (min s.prefetch.maxExtra ((71 - (s.engine.count + 8 * k)) / 8)) →
    (s.source.after k).answers m = extra.map SourceAnswer.byte ++ .never :: rest →
    exec (.read n) s = .fault .sourceNeverAnswers ∧ exec (.peek n) s = .fault .sourceNeverAnswers)

/-- 42_fast_reader R160: with P1 and P2 met, READU returns the next `n` bits of the stream and consumes them. -/
def Obligations.ReaduTakesNextBits : Prop :=
  ∀ (n : Nat) (s : State) (bs : List Byte), s.engine.Is .fast → 1 ≤ n → n ≤ 64 → s.engine.AccOk →
    s.source.answers (s.engine.need n) = bs.map SourceAnswer.byte →
    ∃ (v : Data) (e : Engine),
      exec (.readu n) s = .next ({ s with engine := e, source := s.source.after (s.engine.need n) }.answered ⟨.ok, v⟩) ∧
      fieldBits s.engine.endian n v ++ e.window = s.engine.window ++ streamBits s.engine.endian bs ∧ v.toNat < 2 ^ n ∧
      e.count + n = s.engine.count + 8 * bs.length ∧ e.AccOk ∧ s.engine.SameConfig e ∧
      (s.source.after (s.engine.need n)).delivered = s.source.delivered ++ bs

/-- 42_fast_reader R163: a run of READUs with P1 and P2 met goes, command for command, as the STD tier's READs of the same widths over the
same source. -/
def Obligations.FastReadsEqualStdReads : Prop :=
  ∀ (widths : List Nat) (s t : State), s.engine.Is .fast → runAll (widths.map Instr.readu) s = .next t →
    runAll (widths.map Instr.read) { s with engine := { s.engine with tier := .std } } =
      .next { t with engine := { t.engine with tier := .std } }

/-- 42_fast_reader R162: a broken precondition of READU is the model's fault UNDEFINED, at the point it breaks: at once for a width outside
1 to 64 (P1), at the EOS for a stream that ends (P2). -/
def Obligations.BrokenReaduIsUndefined : Prop :=
  ∀ (n : Nat) (s : State), s.engine.Is .fast →
    (n = 0 ∨ 64 < n → ∃ t : State, exec (.readu n) s = .fault (.undefined t) ∧ t.engine.ub = true ∧ t.source = s.source) ∧
    (∀ (bs : List Byte) (rest : List SourceAnswer), 1 ≤ n → n ≤ 64 →
      s.source.answers (s.engine.need n) = bs.map SourceAnswer.byte ++ .eos :: rest →
      ∃ t : State, exec (.readu n) s = .fault (.undefined t) ∧ t.engine.ub = true ∧ t.source = s.source.after (bs.length + 1))

/-- 41_reader R142: a second PEEK of the same width answers the same, makes no pull and changes nothing. -/
def Obligations.PeekIsIdempotent : Prop :=
  ∀ (n : Nat) (s t : State) (v : Data), exec (.peek n) s = .next t → t.host.responses = s.host.responses ++ [⟨.ok, v⟩] →
    exec (.peek n) t = .next (t.answered ⟨.ok, v⟩)

/-- 41_reader R139, R140: after a PEEK of `n`, a READ of at most `n` bits returns the first of the bits peeked, makes no pull, and changes only
the accumulator, which gives up exactly those bits. -/
def Obligations.ReadAfterPeekPullsNothing : Prop :=
  ∀ (n m : Nat) (s t : State) (v : Data), s.engine.AccOk → exec (.peek n) s = .next t →
    t.host.responses = s.host.responses ++ [⟨.ok, v⟩] → 1 ≤ m → m ≤ n →
    ∃ (w : Data) (e : Engine), exec (.read m) t = .next ({ t with engine := e }.answered ⟨.ok, w⟩) ∧
      fieldBits s.engine.endian m w = (fieldBits s.engine.endian n v).take m ∧ w.toNat < 2 ^ m ∧
      e.window = t.engine.window.drop m ∧ e.AccOk ∧ t.engine.SameConfig e

/-- 41_reader R144 (STD): how far the look-ahead goes after a READ or a PEEK that succeeds. -/
def Obligations.StdLookAheadBounds : Prop :=
  ∀ (n : Nat) (s t : State) (v : Data), s.engine.Is .std → s.engine.AccOk → t.host.responses = s.host.responses ++ [⟨.ok, v⟩] →
    (exec (.read n) s = .next t → if n ≤ s.engine.count then t.engine.count + n = s.engine.count else t.engine.count ≤ 7) ∧
    (exec (.peek n) s = .next t → t.engine.count ≤ max s.engine.count (n + 7) ∧ n ≤ t.engine.count)

/-- 41_reader R143, R138, R141: a BULK reader and an STD reader of one deterministic stream answer every READ and PEEK alike, for every
prefetch draw, and stay related. AVAIL is no part of it: it may show the draw (44_control R230). -/
def Obligations.BulkSimulatesStd : Prop :=
  ∀ (n : Nat) (s b : State) (ahead rest : List Byte), BulkAhead s b ahead rest →
    (∃ (s' b' : State) (ahead' rest' : List Byte),
      exec (.read n) s = .next s' ∧ exec (.read n) b = .next b' ∧ BulkAhead s' b' ahead' rest') ∧
    (∃ (s' b' : State) (ahead' rest' : List Byte),
      exec (.peek n) s = .next s' ∧ exec (.peek n) b = .next b' ∧ BulkAhead s' b' ahead' rest')

/-! ### Writes and flush -/

/-- 43_writer R183, R181, 20_memory R58: with room and every offer accepted, WRITE appends the field's bits, sends every full byte, oldest
first, and keeps the rest. -/
def Obligations.WriteDepositsField : Prop :=
  ∀ (n : Nat) (d : Data) (s : State) (k : Nat), s.engine.Is .writer → 1 ≤ n → n ≤ 64 → s.engine.AccOk → s.engine.count + n ≤ 71 →
    k = (s.engine.count + n) / 8 → s.sink.answers k = List.replicate k .accept →
    ∃ (bs : List Byte) (e : Engine),
      exec (.write n d) s = .next ({ s with engine := e, sink := s.sink.offeredAll bs }.answered ⟨.ok, 0#64⟩) ∧
      bs.length = k ∧ streamBits s.engine.endian bs ++ e.window = s.engine.window ++ fieldBits s.engine.endian n d ∧
      e.count = (s.engine.count + n) % 8 ∧ e.AccOk ∧ s.engine.SameConfig e ∧
      (s.sink.offeredAll bs).bytes = s.sink.bytes ++ bs

/-- 43_writer R182, 60_exceptions R248: a WRITE that the sink refuses has inserted its whole field; the bytes accepted before stay sent; the
refused byte and every bit after it stay in the accumulator. -/
def Obligations.WriteSinkFailKeepsBits : Prop :=
  ∀ (n : Nat) (d : Data) (s : State) (j : Nat) (rest : List SinkAnswer), s.engine.Is .writer → 1 ≤ n → n ≤ 64 → s.engine.AccOk →
    s.engine.count + n ≤ 71 →
    s.sink.answers ((s.engine.count + n) / 8) = List.replicate j .accept ++ .refuse :: rest →
    ∃ (bs : List Byte) (b : Byte) (e : Engine),
      exec (.write n d) s = .next ({ s with engine := e, sink := s.sink.offeredAll (bs ++ [b]) }.answered ⟨.sinkFail, 0#64⟩) ∧
      bs.length = j ∧ streamBits s.engine.endian bs ++ e.window = s.engine.window ++ fieldBits s.engine.endian n d ∧
      byteBits s.engine.endian b = e.window.take 8 ∧ e.AccOk ∧ s.engine.SameConfig e ∧
      (s.sink.offeredAll (bs ++ [b])).bytes = s.sink.bytes ++ bs

/-- 43_writer R185, 60_exceptions R247: a field that does not fit answers OVERFLOW before any other effect; after a WRITE or a FLUSH that
returned OK at most 7 bits are pending, so that every WRITE of up to 64 bits fits. -/
def Obligations.WriteOverflow : Prop :=
  (∀ (n : Nat) (d : Data) (s : State), s.engine.Is .writer → 1 ≤ n → n ≤ 64 → 71 < s.engine.count + n →
    exec (.write n d) s = .next (s.answered ⟨.overflow, 0#64⟩)) ∧
  (∀ (i : Instr) (s t : State), (∃ n d, i = .write n d) ∨ i = .flush → exec i s = .next t →
    t.host.responses = s.host.responses ++ [⟨.ok, 0#64⟩] → t.engine.count ≤ 7)

/-- 43_writer R186, R187, R188 and 44_control R220: with every offer accepted, FLUSH sends the pending bits and then zeros up to the byte, in
`ceil_div(CNT, 8)` bytes, and empties the accumulator; CLOSE of a writer sends the same bytes and unconfigures. -/
def Obligations.FlushAndCloseSendPendingBits : Prop :=
  ∀ (s : State) (k : Nat), s.engine.Is .writer → s.engine.AccOk → k = (s.engine.count + 7) / 8 →
    s.sink.answers k = List.replicate k .accept →
    ∃ bs : List Byte, bs.length = k ∧
      exec .flush s = .next ({ s with
        engine := { s.engine with reg := 0#72, cnt := 0#7 }, sink := s.sink.offeredAll bs }.answered ⟨.ok, 0#64⟩) ∧
      exec .close s = .next ({ s with
        engine := { cfgValid := false, tier := .std, endian := .be, reg := 0#72, cnt := 0#7, ub := s.engine.ub }
        sink := s.sink.offeredAll bs }.answered ⟨.ok, 0#64⟩) ∧
      streamBits s.engine.endian bs = s.engine.window ++ List.replicate (8 * k - s.engine.count) false ∧
      (s.sink.offeredAll bs).bytes = s.sink.bytes ++ bs

/-- 44_control R221 (43_writer R182, R188): a FLUSH or a writer's CLOSE that the sink refuses answers SINK_FAIL, stays configured, and keeps
every bit not yet accepted. -/
def Obligations.RefusedFlushAndCloseKeepBits : Prop :=
  ∀ (s : State) (j : Nat) (rest : List SinkAnswer), s.engine.Is .writer → s.engine.AccOk →
    s.sink.answers ((s.engine.count + 7) / 8) = List.replicate j .accept ++ .refuse :: rest →
    ∃ (bs : List Byte) (b : Byte) (e : Engine), bs.length = j ∧
      exec .flush s = .next ({ s with engine := e, sink := s.sink.offeredAll (bs ++ [b]) }.answered ⟨.sinkFail, 0#64⟩) ∧
      exec .close s = .next ({ s with engine := e, sink := s.sink.offeredAll (bs ++ [b]) }.answered ⟨.sinkFail, 0#64⟩) ∧
      streamBits s.engine.endian bs ++ e.window = s.engine.window ∧ e.AccOk ∧ s.engine.SameConfig e ∧
      (s.sink.offeredAll (bs ++ [b])).bytes = s.sink.bytes ++ bs

/-- 20_memory R56: an offer that the sink never answers: WRITE, FLUSH and CLOSE never complete (the model's named stop, log 3). -/
def Obligations.UnansweredOfferHangs : Prop :=
  ∀ (n : Nat) (d : Data) (s : State) (j : Nat) (rest : List SinkAnswer), s.engine.Is .writer → s.engine.AccOk →
    (1 ≤ n → n ≤ 64 → s.engine.count + n ≤ 71 →
      s.sink.answers ((s.engine.count + n) / 8) = List.replicate j .accept ++ .never :: rest →
      exec (.write n d) s = .fault .sinkNeverAnswers) ∧
    (s.sink.answers ((s.engine.count + 7) / 8) = List.replicate j .accept ++ .never :: rest →
      exec .flush s = .fault .sinkNeverAnswers ∧ exec .close s = .fault .sinkNeverAnswers)

/-- 43_writer R189: a FLUSH that returns OK leaves CNT = 0; a second FLUSH then sends nothing, returns OK and changes nothing. -/
def Obligations.FlushIsIdempotent : Prop :=
  ∀ s t : State, exec .flush s = .next t → t.host.responses = s.host.responses ++ [⟨.ok, 0#64⟩] →
    t.engine.cnt = 0#7 ∧ exec .flush t = .next (t.answered ⟨.ok, 0#64⟩)

/-- 43_writer R190: WRITEs and one FLUSH, all returning OK, from an instance just opened, send exactly the bytes that hold the fields in
order and then zeros. -/
def Obligations.WriterStreamIsTheFields : Prop :=
  ∀ (fields : List Field) (s t : State), s.engine.Is .writer → s.engine.reg = 0#72 → s.engine.cnt = 0#7 → widthsOk fields →
    runAll (writeProgram fields) s = .next t →
    t.host.responses = s.host.responses ++ List.replicate (fields.length + 1) ⟨.ok, 0#64⟩ →
    ∃ out : List Byte, t.sink.bytes = s.sink.bytes ++ out ∧ out.length = ceilDiv (totalWidth fields) 8 ∧
      streamBits s.engine.endian out =
        fields.flatMap (fun f => fieldBits s.engine.endian f.1 (BitVec.ofNat 64 (f.2.toNat % 2 ^ f.1))) ++
          List.replicate ((8 - totalWidth fields % 8) % 8) false

/-- 43_writer R191: what was written and flushed, given as a deterministic source to a reader of any tier opened in the same endianness, is
read back: the reads of the same widths return the fields modulo 2^n, all OK. -/
def Obligations.RoundTrip : Prop :=
  ∀ (fields : List Field) (s t r : State) (out : List Byte), s.engine.Is .writer → s.engine.reg = 0#72 → s.engine.cnt = 0#7 →
    widthsOk fields → runAll (writeProgram fields) s = .next t →
    t.host.responses = s.host.responses ++ List.replicate (fields.length + 1) ⟨.ok, 0#64⟩ →
    t.sink.bytes = s.sink.bytes ++ out →
    r.engine.cfgValid = true → r.engine.tier ≠ .writer → r.engine.endian = s.engine.endian → r.engine.reg = 0#72 → r.engine.cnt = 0#7 →
    r.source.script = out.map SourceAnswer.byte → r.source.deterministic = true →
    ∃ u : State, runAll (readProgram r.engine.tier fields) r = .next u ∧
      u.host.responses = r.host.responses ++ fields.map (fun f => ⟨.ok, BitVec.ofNat 64 (f.2.toNat % 2 ^ f.1)⟩)

/-! ### The whole machine -/

/-- 10_state R25, R26, R24, R28: every step keeps `CNT <= 71`, zeros in REG above CNT, the idle configuration, `UB = 0`; and, for R21, the host's
index within its program, a clause of the model's own that rests on logs 6 and 8 (a waiting step leaves the index at the program's end). -/
def Obligations.StepKeepsInvariant : Prop :=
  ∀ s t : State, s.Inv → step s = .next t → t.Inv

/-- 10_state R24: while an instance stays configured no command changes TIER or END; only OPEN configures it, with its operands; only CLOSE
and DISCARD end the lifetime. -/
def Obligations.ConfigurationIsFixedForLifetime : Prop :=
  ∀ (i : Instr) (s t : State), exec i s = .next t →
    (s.engine.cfgValid = true → t.engine.cfgValid = true → t.engine.tier = s.engine.tier ∧ t.engine.endian = s.engine.endian) ∧
    (s.engine.cfgValid = false → t.engine.cfgValid = true → i = .openCmd t.engine.tier t.engine.endian) ∧
    (s.engine.cfgValid = true → t.engine.cfgValid = false → i = .close ∨ i = .discard)

/-- 30_encoding R81: each command that completes gives one response more and nothing else to the host; the content of RESULT. -/
def Obligations.OneResponseWithItsResult : Prop :=
  ∀ (i : Instr) (s t : State), exec i s = .next t →
    ∃ r : Response, t.host = { s.host with responses := s.host.responses ++ [r] } ∧ (r.status ≠ .ok → r.result = 0#64) ∧
      match i with
      | .read n => r.result.toNat < 2 ^ n
      | .peek n => r.result.toNat < 2 ^ n
      | .readu n => r.result.toNat < 2 ^ n
      | .avail => r.status = .ok → r.result.toNat = s.engine.cnt.toNat
      | _ => r.result = 0#64

/-- 60_exceptions R240: which command answers which status, for which cause, and the state it leaves. The cause of END_OF_STREAM is an EOS among
the answers to the mandatory pulls, that of SINK_FAIL a REFUSE among the answers to the command's offers. -/
def Obligations.StatusHasItsCause : Prop :=
  ∀ (i : Instr) (s t : State) (r : Response), exec i s = .next t → t.host.responses = s.host.responses ++ [r] →
    (r.status = .invalidWidth → t = s.answered r ∧
      ∃ n d, (n = 0 ∨ 64 < n) ∧ (i = .read n ∨ i = .peek n ∨ i = .write n d)) ∧
    (r.status = .endOfStream → t.engine.reg = 0#72 ∧ t.engine.cnt = 0#7 ∧
      ∃ n, (i = .read n ∨ i = .peek n) ∧ .eos ∈ s.source.answers (s.engine.need n)) ∧
    (r.status = .overflow → t = s.answered r ∧ ∃ n d, i = .write n d ∧ 71 < s.engine.count + n) ∧
    (r.status = .sinkFail → t.engine.Is .writer ∧
      ((∃ n d, i = .write n d ∧ .refuse ∈ s.sink.answers ((s.engine.count + n) / 8)) ∨
        ((i = .flush ∨ i = .close) ∧ .refuse ∈ s.sink.answers ((s.engine.count + 7) / 8)))) ∧
    (r.status = .illegalCommand → t = s.answered r ∧ ¬ LegalIn i s.engine) ∧
    r.status.code ≠ 6#3 ∧ r.status.code ≠ 7#3

/-- 10_state R22: no command reads an earlier response: with any other responses received before, it does the same and answers the same. -/
def Obligations.NoCommandReadsResponses : Prop :=
  ∀ (i : Instr) (s t : State) (before : List Response), exec i s = .next t →
    ∃ r : Response, t.host.responses = s.host.responses ++ [r] ∧
      exec i { s with host := { s.host with responses := before } } = .next { t with host := { t.host with responses := before ++ [r] } }

/-- 20_memory R50, 10_state R32: an instance uses one port only, and the ports' records only grow; BULK_MAX_EXTRA never changes, and no command
takes draws but those of its own instance (log 21). -/
def Obligations.OnePortPerTier : Prop :=
  ∀ (i : Instr) (s t : State), exec i s = .next t →
    (s.engine.cfgValid = false → t.source = s.source ∧ t.sink = s.sink ∧ t.prefetch = s.prefetch) ∧
    (s.engine.tier = .writer → t.source = s.source ∧ t.prefetch = s.prefetch) ∧
    (s.engine.tier ≠ .writer → t.sink = s.sink) ∧ (s.engine.tier ≠ .bulk → t.prefetch = s.prefetch) ∧
    t.prefetch.maxExtra = s.prefetch.maxExtra ∧
    t.source.owner = s.source.owner ∧ t.sink.owner = s.sink.owner ∧ t.prefetch.owner = s.prefetch.owner ∧
    (∃ more, t.source.delivered = s.source.delivered ++ more) ∧ (∃ more, t.sink.bytes = s.sink.bytes ++ more)

/-- 20_memory R62: how many port transactions a command makes at most. -/
def Obligations.TransactionBounds : Prop :=
  ∀ (i : Instr) (s t : State), s.engine.AccOk → exec i s = .next t →
    t.source.pulls ≤ s.source.pulls + 9 ∧ (s.engine.tier ≠ .bulk → t.source.pulls ≤ s.source.pulls + 8) ∧
    t.source.delivered.length ≤ s.source.delivered.length + 8 ∧
    t.sink.offers ≤ s.sink.offers + 9 ∧ (∀ n d, i = .write n d → t.sink.offers ≤ s.sink.offers + 8)

/-- 40_accumulator R112, 93 U1 to U6: only a READU in the FAST tier reaches `fault UNDEFINED`; no command is refused. -/
def Obligations.OnlyReaduIsUndefined : Prop :=
  ∀ (i : Instr) (s : State),
    (∀ t, exec i s = .fault (.undefined t) → t.engine.ub = true ∧ s.engine.Is .fast ∧ ∃ n, i = .readu n) ∧
    (∀ r, exec i s ≠ .refused r)

/-- 30_encoding R80, 20_memory R56: if both ports answer, every command is answered, except a READU with a broken precondition. -/
def Obligations.EveryCommandIsAnswered : Prop :=
  ∀ (i : Instr) (s : State), s.engine.AccOk → (∀ a ∈ s.source.answers 9, a ≠ .never) → (∀ a ∈ s.sink.answers 9, a ≠ .never) →
    (∀ n, i = .readu n → 1 ≤ n ∧ n ≤ 64 ∧ ∀ a ∈ s.source.answers (s.engine.need n), ∃ b, a = .byte b) →
    ∃ t, exec i s = .next t

/-- 60_exceptions R255: a step of one instance of a platform moves that instance alone, and where that instance has no step the fault names it
(log 22). -/
def Obligations.InstancesAreIndependent : Prop :=
  ∀ (k : Nat) (p : Platform),
    (∀ q, p.stepAt k = some (.next q) →
      q.length = p.length ∧ (∀ j, j ≠ k → q[j]? = p[j]?) ∧ ∃ s t, p[k]? = some s ∧ step s = .next t ∧ q[k]? = some t) ∧
    (∀ j r, p.stepAt k = some (.fault (j, r)) → j = k ∧ ∃ s, p[k]? = some s ∧ step s = .fault r)

/-- 00_scope R7, 60_exceptions R255: a platform has a positive number of instances; at reset each has its own engine at its reset values, and its
ports and its prefetch draw free values of its own number, which no other instance has (log 21). -/
def Obligations.PlatformResetSeparatesInstances : Prop :=
  Platform.reset.length = Config.instances ∧ 0 < Config.instances ∧
    ∀ (k : Nat) (s : State), Platform.reset[k]? = some s →
      s.engine = { cfgValid := false, tier := .std, endian := .be, reg := 0#72, cnt := 0#7, ub := false } ∧
      s.source.owner = k ∧ s.sink.owner = k ∧ s.prefetch.owner = k ∧ s.source.answer = Config.sourceDraw k 0 ∧
      s.sink.answer = Config.sinkDraw k 0 ∧ s.prefetch.wish = Config.prefetchDraw k 0 ∧ s.prefetch.maxExtra = Config.bulkMaxExtra k
end

