-- ==== Sys2Proof/Laws/State.lean ====
section
/-! SUPPORT. One lemma per field per update of the state, so that no later proof unfolds a record update. -/

namespace Sys2Proof.Machine

variable (s : State) (e : Engine) (r : Response) (b : Byte) (n : Nat)

/-! ### `withEngine` -/
@[simp] theorem State.withEngine_engine : (s.withEngine e).engine = e := rfl
@[simp] theorem State.withEngine_source : (s.withEngine e).source = s.source := rfl
@[simp] theorem State.withEngine_sink : (s.withEngine e).sink = s.sink := rfl
@[simp] theorem State.withEngine_host : (s.withEngine e).host = s.host := rfl
@[simp] theorem State.withEngine_prefetch : (s.withEngine e).prefetch = s.prefetch := rfl

/-! ### `answered` -/
@[simp] theorem State.answered_engine : (s.answered r).engine = s.engine := rfl
@[simp] theorem State.answered_source : (s.answered r).source = s.source := rfl
@[simp] theorem State.answered_sink : (s.answered r).sink = s.sink := rfl
@[simp] theorem State.answered_prefetch : (s.answered r).prefetch = s.prefetch := rfl
@[simp] theorem State.answered_program : (s.answered r).host.program = s.host.program := rfl
@[simp] theorem State.answered_index : (s.answered r).host.index = s.host.index := rfl
@[simp] theorem State.answered_responses : (s.answered r).host.responses = s.host.responses ++ [r] := rfl

/-! ### `pulled` and `offered` on the state -/
@[simp] theorem State.pulled_engine : s.pulled.engine = s.engine := rfl
@[simp] theorem State.pulled_source : s.pulled.source = s.source.pulled := rfl
@[simp] theorem State.pulled_sink : s.pulled.sink = s.sink := rfl
@[simp] theorem State.pulled_host : s.pulled.host = s.host := rfl
@[simp] theorem State.pulled_prefetch : s.pulled.prefetch = s.prefetch := rfl
@[simp] theorem State.offered_engine : (s.offered b).engine = s.engine := rfl
@[simp] theorem State.offered_source : (s.offered b).source = s.source := rfl
@[simp] theorem State.offered_sink : (s.offered b).sink = s.sink.offered b := rfl
@[simp] theorem State.offered_host : (s.offered b).host = s.host := rfl
@[simp] theorem State.offered_prefetch : (s.offered b).prefetch = s.prefetch := rfl

/-! ### The host's moves -/
@[simp] theorem State.moved_engine : s.moved.engine = s.engine := rfl
@[simp] theorem State.moved_source : s.moved.source = s.source := rfl
@[simp] theorem State.moved_sink : s.moved.sink = s.sink := rfl
@[simp] theorem State.moved_prefetch : s.moved.prefetch = s.prefetch := rfl
@[simp] theorem State.moved_program : s.moved.host.program = s.host.program := rfl
@[simp] theorem State.moved_index : s.moved.host.index = s.host.index + 1 := rfl
@[simp] theorem State.moved_responses : s.moved.host.responses = s.host.responses := rfl
@[simp] theorem State.resetEngine_engine : s.resetEngine.engine = Engine.reset := rfl
@[simp] theorem State.resetEngine_source : s.resetEngine.source = s.source := rfl
@[simp] theorem State.resetEngine_sink : s.resetEngine.sink = s.sink := rfl
@[simp] theorem State.resetEngine_host : s.resetEngine.host = s.host := rfl
@[simp] theorem State.resetEngine_prefetch : s.resetEngine.prefetch = s.prefetch := rfl

/-! ### The engine's updates -/
@[simp] theorem Engine.clear_cfgValid : e.clear.cfgValid = e.cfgValid := rfl
@[simp] theorem Engine.clear_tier : e.clear.tier = e.tier := rfl
@[simp] theorem Engine.clear_endian : e.clear.endian = e.endian := rfl
@[simp] theorem Engine.clear_reg : e.clear.reg = 0#72 := rfl
@[simp] theorem Engine.clear_cnt : e.clear.cnt = 0#7 := rfl
@[simp] theorem Engine.clear_ub : e.clear.ub = e.ub := rfl
@[simp] theorem Engine.configure_cfgValid (t : Tier) (d : Endian) : (e.configure t d).cfgValid = true := rfl
@[simp] theorem Engine.configure_tier (t : Tier) (d : Endian) : (e.configure t d).tier = t := rfl
@[simp] theorem Engine.configure_endian (t : Tier) (d : Endian) : (e.configure t d).endian = d := rfl
@[simp] theorem Engine.configure_reg (t : Tier) (d : Endian) : (e.configure t d).reg = 0#72 := rfl
@[simp] theorem Engine.configure_cnt (t : Tier) (d : Endian) : (e.configure t d).cnt = 0#7 := rfl
@[simp] theorem Engine.configure_ub (t : Tier) (d : Endian) : (e.configure t d).ub = e.ub := rfl
@[simp] theorem Engine.unconfigure_cfgValid : e.unconfigure.cfgValid = false := rfl
@[simp] theorem Engine.unconfigure_tier : e.unconfigure.tier = .std := rfl
@[simp] theorem Engine.unconfigure_endian : e.unconfigure.endian = .be := rfl
@[simp] theorem Engine.unconfigure_reg : e.unconfigure.reg = 0#72 := rfl
@[simp] theorem Engine.unconfigure_cnt : e.unconfigure.cnt = 0#7 := rfl
@[simp] theorem Engine.unconfigure_ub : e.unconfigure.ub = e.ub := rfl
@[simp] theorem Engine.dropOldest_cfgValid : (e.dropOldest n).cfgValid = e.cfgValid := rfl
@[simp] theorem Engine.dropOldest_tier : (e.dropOldest n).tier = e.tier := rfl
@[simp] theorem Engine.dropOldest_endian : (e.dropOldest n).endian = e.endian := rfl
@[simp] theorem Engine.dropOldest_cnt : (e.dropOldest n).cnt = countOf (e.count - n) := rfl
@[simp] theorem Engine.dropOldest_ub : (e.dropOldest n).ub = e.ub := rfl

/-! ### The agents' updates -/
@[simp] theorem Source.pulled_script (q : Source) : q.pulled.script = q.script.tail := rfl
@[simp] theorem Source.pulled_deterministic (q : Source) : q.pulled.deterministic = q.deterministic := rfl
@[simp] theorem Source.pulled_owner (q : Source) : q.pulled.owner = q.owner := rfl
@[simp] theorem Source.pulled_pulls (q : Source) : q.pulled.pulls = q.pulls + 1 := rfl
@[simp] theorem Sink.offered_script (q : Sink) : (q.offered b).script = q.script.tail := rfl
@[simp] theorem Sink.offered_deterministic (q : Sink) : (q.offered b).deterministic = q.deterministic := rfl
@[simp] theorem Sink.offered_owner (q : Sink) : (q.offered b).owner = q.owner := rfl
@[simp] theorem Sink.offered_offers (q : Sink) : (q.offered b).offers = q.offers + 1 := rfl
@[simp] theorem Prefetch.drawn_owner (p : Prefetch) : p.drawn.owner = p.owner := rfl
@[simp] theorem Prefetch.drawn_maxExtra (p : Prefetch) : p.drawn.maxExtra = p.maxExtra := rfl
@[simp] theorem Prefetch.drawn_script (p : Prefetch) : p.drawn.script = p.script.tail := rfl
@[simp] theorem Prefetch.drawn_draws (p : Prefetch) : p.drawn.draws = p.draws + 1 := rfl

end Sys2Proof.Machine
end

