-- ==== Sys2Proof/Laws/Bits.lean ====
section
/-! SUPPORT. Bit sequences in stream order (20_memory R57, R58): their lengths and their elements, and when two values have the same bits. -/

namespace Sys2Proof.Machine

@[simp] theorem bitsInOrder_length (d : Endian) (n : Nat) (bit : Nat → Bool) : (bitsInOrder d n bit).length = n := by
  cases d <;> simp [bitsInOrder, bitsDown, bitsUp]

@[simp] theorem byteBits_length (d : Endian) (b : Byte) : (byteBits d b).length = 8 := by simp [byteBits]

@[simp] theorem fieldBits_length (d : Endian) (n : Nat) (v : Data) : (fieldBits d n v).length = n := by simp [fieldBits]

@[simp] theorem Engine.window_length (e : Engine) : e.window.length = e.count := by simp [Engine.window]

@[simp] theorem streamBits_nil (d : Endian) : streamBits d [] = [] := rfl

theorem streamBits_cons (d : Endian) (b : Byte) (bs : List Byte) :
    streamBits d (b :: bs) = byteBits d b ++ streamBits d bs := rfl

theorem streamBits_append (d : Endian) (bs cs : List Byte) :
    streamBits d (bs ++ cs) = streamBits d bs ++ streamBits d cs := by simp [streamBits]

@[simp] theorem streamBits_length (d : Endian) (bs : List Byte) : (streamBits d bs).length = 8 * bs.length := by
  induction bs with
  | nil => rfl
  | cons b bs ih => simp [streamBits_cons, ih]; omega

theorem bitsDown_congr {n : Nat} {f g : Nat → Bool} (h : ∀ i, i < n → f i = g i) : bitsDown n f = bitsDown n g :=
  List.map_congr_left fun _ hi => h _ (by have := List.mem_range.mp hi; omega)

theorem bitsUp_congr {n : Nat} {f g : Nat → Bool} (h : ∀ i, i < n → f i = g i) : bitsUp n f = bitsUp n g :=
  List.map_congr_left fun _ hi => h _ (List.mem_range.mp hi)

/-- Two sequences agree when the values' bits do. -/
theorem bitsInOrder_congr {d : Endian} {n : Nat} {f g : Nat → Bool} (h : ∀ i, i < n → f i = g i) :
    bitsInOrder d n f = bitsInOrder d n g := by
  cases d
  · exact bitsDown_congr h
  · exact bitsUp_congr h

/-- MSB first, the newer value below: `n + m` bits are the top `n`, then the low `m`. -/
theorem bitsDown_add (n m : Nat) (bit : Nat → Bool) :
    bitsDown (n + m) bit = bitsDown n (fun i => bit (m + i)) ++ bitsDown m bit := by
  apply List.ext_getElem
  · simp [bitsDown]
  · intro i h1 h2
    simp only [bitsDown, List.getElem_map, List.getElem_range, List.getElem_append, List.length_map, List.length_range]
    split <;> congr 1 <;> simp [bitsDown] at h1 <;> omega

/-- LSB first, the newer value above: `n + m` bits are the low `n`, then the top `m`. -/
theorem bitsUp_add (n m : Nat) (bit : Nat → Bool) :
    bitsUp (n + m) bit = bitsUp n bit ++ bitsUp m (fun i => bit (n + i)) := by
  apply List.ext_getElem
  · simp [bitsUp]
  · intro i h1 h2
    simp only [bitsUp, List.getElem_map, List.getElem_range, List.getElem_append, List.length_map, List.length_range]
    split
    · rfl
    · congr 1; omega

/-- The split of `bitsDown_add` at a known total. -/
theorem bitsDown_split {k : Nat} (n : Nat) (h : n ≤ k) (bit : Nat → Bool) :
    bitsDown k bit = bitsDown n (fun i => bit (k - n + i)) ++ bitsDown (k - n) bit := by
  obtain ⟨m, rfl⟩ := Nat.exists_eq_add_of_le h
  rw [Nat.add_sub_cancel_left]
  exact bitsDown_add n m bit

/-- The split of `bitsUp_add` at a known total. -/
theorem bitsUp_split {k : Nat} (n : Nat) (h : n ≤ k) (bit : Nat → Bool) :
    bitsUp k bit = bitsUp n bit ++ bitsUp (k - n) (fun i => bit (n + i)) := by
  obtain ⟨m, rfl⟩ := Nat.exists_eq_add_of_le h
  rw [Nat.add_sub_cancel_left]
  exact bitsUp_add n m bit

theorem bitsInOrder_zero (d : Endian) (n : Nat) : bitsInOrder d n (fun _ => false) = zeros n := by
  cases d <;> simp [bitsInOrder, bitsDown, bitsUp, zeros]

/-- A bit sequence determines the bits. -/
theorem bitsInOrder_inj {d : Endian} {n : Nat} {f g : Nat → Bool} (h : bitsInOrder d n f = bitsInOrder d n g) (i : Nat) (hi : i < n) : f i = g i := by
  cases d
  · simp only [bitsInOrder, bitsDown] at h
    have := (List.map_inj_left.mp h) (n - 1 - i) (List.mem_range.mpr (by omega))
    rwa [show n - 1 - (n - 1 - i) = i by omega] at this
  · simp only [bitsInOrder, bitsUp] at h
    exact (List.map_inj_left.mp h) i (List.mem_range.mpr hi)

/-- A field of `n` bits is determined by its stream bits (20_memory R58). -/
theorem fieldBits_inj {d : Endian} {n : Nat} {v w : Data} (hv : v.toNat < 2 ^ n) (hw : w.toNat < 2 ^ n)
    (h : fieldBits d n v = fieldBits d n w) : v = w := by
  apply BitVec.eq_of_getLsbD_eq
  intro i hi
  by_cases hn : i < n
  · exact bitsInOrder_inj h i hn
  · have : 2 ^ n ≤ 2 ^ i := Nat.pow_le_pow_right (by omega) (by omega)
    rw [BitVec.getLsbD, BitVec.getLsbD, Nat.testBit_lt_two_pow (by omega), Nat.testBit_lt_two_pow (by omega)]

/-- Only the low `n` bits of a value are its field. -/
theorem fieldBits_ofNat_mod (d : Endian) (n : Nat) (v : Data) : fieldBits d n (BitVec.ofNat 64 (v.toNat % 2 ^ n)) = fieldBits d n v := by
  refine bitsInOrder_congr fun i hi => ?_
  simp only [BitVec.getLsbD_ofNat, Nat.testBit_mod_two_pow]
  by_cases h : i < 64
  · simp [h, hi]; rfl
  · simp [h, BitVec.getLsbD_of_ge v i (by omega)]

end Sys2Proof.Machine
end

