-- ==== Sys2Proof/Laws/Accumulator.lean ====
section
/-! SUPPORT. What each accumulator primitive can do: when it answers, what the window, the count and the invariant are afterwards
(40_accumulator R101 to R108). -/

namespace Sys2Proof.Machine

theorem Engine.SameConfig.refl (e : Engine) : e.SameConfig e := ⟨rfl, rfl, rfl, rfl⟩

theorem Engine.SameConfig.trans {e f g : Engine} (h : e.SameConfig f) (k : f.SameConfig g) : e.SameConfig g :=
  ⟨k.1.trans h.1, k.2.1.trans h.2.1, k.2.2.1.trans h.2.2.1, k.2.2.2.trans h.2.2.2⟩

theorem countOf_toNat {k : Nat} (h : k ≤ cntMax) : (countOf k).toNat = k := by
  simp only [countOf, BitVec.toNat_ofNat]
  exact Nat.mod_eq_of_lt (by unfold cntMax at h; omega)

theorem Engine.count_lt (e : Engine) : e.count < 128 := e.cnt.isLt

/-- Above `CNT`, `REG` holds zeros (10_state R26). -/
theorem Engine.AccOk.high {e : Engine} (h : e.AccOk) {i : Nat} (hi : e.count ≤ i) : e.reg.getLsbD i = false := by
  rw [BitVec.getLsbD]
  exact Nat.testBit_lt_two_pow (Nat.lt_of_lt_of_le h.2 (Nat.pow_le_pow_right (by omega) hi))

/-- The converse: zeros above `CNT` are R26. -/
theorem Engine.accOk_of_high {e : Engine} (hc : e.count ≤ cntMax) (h : ∀ i, e.count ≤ i → e.reg.getLsbD i = false) : e.AccOk := by
  refine ⟨hc, ?_⟩
  rcases Nat.lt_or_ge e.reg.toNat (2 ^ e.count) with hlt | hge
  · exact hlt
  · obtain ⟨i, hi, hb⟩ := Nat.exists_ge_and_testBit_of_ge_two_pow hge
    rw [show e.reg.toNat.testBit i = e.reg.getLsbD i from rfl, h i hi] at hb
    exact absurd hb (by decide)

/-- Two engines in the same order with the same count and the same valid bits have the same window. -/
theorem Engine.window_ext {e f : Engine} (hd : e.endian = f.endian) (hc : e.count = f.count)
    (h : ∀ i, i < e.count → e.reg.getLsbD i = f.reg.getLsbD i) : e.window = f.window := by
  simp only [Engine.window, ← hd, ← hc]
  exact bitsInOrder_congr h

/-! ### Inserting `k` bits -/

/-- The newest `k` bits inserted, as `refill` and `put` do it. -/
def Engine.insert (e : Engine) (f : RegWord) (k : Nat) : Engine :=
  { e with
    reg := match e.endian with
      | .be => e.reg <<< k ||| f
      | .le => e.reg ||| f <<< e.count
    cnt := countOf (e.count + k) }

theorem Engine.insert_sameConfig (e : Engine) (f : RegWord) (k : Nat) : e.SameConfig (e.insert f k) := ⟨rfl, rfl, rfl, rfl⟩

theorem Engine.insert_count {e : Engine} {f : RegWord} {k : Nat} (h : e.count + k ≤ cntMax) :
    (e.insert f k).count = e.count + k := countOf_toNat h

theorem Engine.insert_window {e : Engine} {f : RegWord} {k : Nat} (ha : e.AccOk) (h : e.count + k ≤ cntMax)
    (hf : ∀ i, k ≤ i → f.getLsbD i = false) :
    (e.insert f k).window = e.window ++ bitsInOrder e.endian k f.getLsbD := by
  have hc : (e.insert f k).count = e.count + k := Engine.insert_count h
  unfold cntMax at h
  simp only [Engine.window, hc]
  change bitsInOrder e.endian (e.count + k) _ = _
  cases hd : e.endian
  · simp only [bitsInOrder, bitsDown_add e.count k]
    congr 1
    · refine bitsDown_congr fun i hi => ?_
      simp [Engine.insert, hd, BitVec.getLsbD_shiftLeft, hf (k + i) (by omega)]
      omega
    · refine bitsDown_congr fun i hi => ?_
      simp [Engine.insert, hd, BitVec.getLsbD_shiftLeft, hi]
  · simp only [bitsInOrder, bitsUp_add e.count k]
    congr 1
    · refine bitsUp_congr fun i hi => ?_
      simp [Engine.insert, hd, BitVec.getLsbD_shiftLeft, hi]
    · refine bitsUp_congr fun i hi => ?_
      simp [Engine.insert, hd, BitVec.getLsbD_shiftLeft, ha.high (Nat.le_add_right e.count i)]
      omega

theorem Engine.insert_accOk {e : Engine} {f : RegWord} {k : Nat} (ha : e.AccOk) (h : e.count + k ≤ cntMax)
    (hf : ∀ i, k ≤ i → f.getLsbD i = false) : (e.insert f k).AccOk := by
  have hc : (e.insert f k).count = e.count + k := Engine.insert_count h
  refine Engine.accOk_of_high (by rw [hc]; exact h) fun i hi => ?_
  rw [hc] at hi
  cases hd : e.endian
  · simp only [Engine.insert, hd, BitVec.getLsbD_or, BitVec.getLsbD_shiftLeft, hf i (by omega), ha.high (show e.count ≤ i - k by omega)]
    simp
  · simp only [Engine.insert, hd, BitVec.getLsbD_or, BitVec.getLsbD_shiftLeft, hf (i - e.count) (by omega), ha.high (show e.count ≤ i by omega)]
    simp

theorem widenByte_high (b : Byte) (i : Nat) (h : 8 ≤ i) : (widenByte b).getLsbD i = false := by
  simp [widenByte, BitVec.getLsbD_of_ge _ _ h]

theorem lowData_getLsbD (v : Data) (n i : Nat) : (lowData v n).getLsbD i = (v.getLsbD i && decide (i < n)) := by
  simp only [lowData, BitVec.getLsbD_and, BitVec.getLsbD_ofNat, Nat.testBit_two_pow_sub_one]
  by_cases hi : i < 64
  · simp [hi]
  · simp [BitVec.getLsbD_of_ge v i (by omega)]

theorem widenData_lowData_high (v : Data) (n i : Nat) (h : n ≤ i) : (widenData (lowData v n)).getLsbD i = false := by
  simp only [widenData, BitVec.getLsbD_setWidth, lowData_getLsbD]
  simp [Nat.not_lt.mpr h]

/-- `refill` (R101): OVERFLOW, or the byte is the newest 8 bits. -/
theorem Engine.refill_eq (e : Engine) (b : Byte) :
    e.refill b = if e.count + 8 > cntMax then none else some (e.insert (widenByte b) 8) := rfl

/-- `put` (R104, R105): OVERFLOW, or the field is the newest `n` bits. -/
theorem Engine.put_eq (e : Engine) (v : Data) (n : Nat) :
    e.put v n = if e.count + n > cntMax then none else some (e.insert (widenData (lowData v n)) n) := rfl

/-- The window after `refill`. -/
theorem Engine.refill_spec {e f : Engine} {b : Byte} (ha : e.AccOk) (h : e.refill b = some f) :
    f.window = e.window ++ byteBits e.endian b ∧ f.count = e.count + 8 ∧ f.AccOk ∧ e.SameConfig f := by
  rw [Engine.refill_eq] at h
  split at h
  · cases h
  · rename_i hc
    cases h
    have hc : e.count + 8 ≤ cntMax := by omega
    refine ⟨?_, Engine.insert_count hc, Engine.insert_accOk ha hc (widenByte_high b), Engine.insert_sameConfig _ _ _⟩
    rw [Engine.insert_window ha hc (widenByte_high b)]
    rfl

/-- The window after `put`, for a width of at most 64. -/
theorem Engine.put_spec {e f : Engine} {v : Data} {n : Nat} (ha : e.AccOk) (h : e.put v n = some f) :
    f.window = e.window ++ fieldBits e.endian n v ∧ f.count = e.count + n ∧ f.AccOk ∧ e.SameConfig f := by
  rw [Engine.put_eq] at h
  split at h
  · cases h
  · rename_i hc
    cases h
    have hc : e.count + n ≤ cntMax := by omega
    refine ⟨?_, Engine.insert_count hc, Engine.insert_accOk ha hc (widenData_lowData_high v n), Engine.insert_sameConfig _ _ _⟩
    rw [Engine.insert_window ha hc (widenData_lowData_high v n)]
    congr 1
    refine bitsInOrder_congr fun i hi => ?_
    simp only [widenData, BitVec.getLsbD_setWidth, lowData_getLsbD]
    unfold cntMax at hc
    simp [hi, show i < 72 by omega]

/-! ### Removing the `n` oldest bits -/

theorem Engine.dropOldest_sameConfig (e : Engine) (n : Nat) : e.SameConfig (e.dropOldest n) := ⟨rfl, rfl, rfl, rfl⟩

theorem Engine.dropOldest_count {e : Engine} {n : Nat} (ha : e.count ≤ cntMax) : (e.dropOldest n).count = e.count - n :=
  countOf_toNat (Nat.le_trans (Nat.sub_le _ _) ha)

theorem maskReg_getLsbD (k i : Nat) : (maskReg k).getLsbD i = (decide (i < 72) && decide (i < k)) := by
  simp only [maskReg, BitVec.getLsbD_ofNat, Nat.testBit_two_pow_sub_one]

theorem Engine.dropOldest_getLsbD (e : Engine) (n i : Nat) :
    (e.dropOldest n).reg.getLsbD i = match e.endian with
      | .be => e.reg.getLsbD i && decide (i < e.count - n)
      | .le => e.reg.getLsbD (n + i) := by
  cases hd : e.endian
  · simp only [Engine.dropOldest, hd, BitVec.getLsbD_and, maskReg_getLsbD]
    by_cases hi : i < 72
    · simp [hi]
    · simp [BitVec.getLsbD_of_ge e.reg i (by omega)]
  · simp only [Engine.dropOldest, hd, BitVec.getLsbD_ushiftRight]

theorem Engine.dropOldest_accOk {e : Engine} (n : Nat) (ha : e.AccOk) : (e.dropOldest n).AccOk := by
  refine Engine.accOk_of_high (by rw [Engine.dropOldest_count ha.1]; exact Nat.le_trans (Nat.sub_le _ _) ha.1) fun i hi => ?_
  rw [Engine.dropOldest_count ha.1] at hi
  rw [Engine.dropOldest_getLsbD]
  cases hd : e.endian
  · simp; intro _; omega
  · exact ha.high (by omega)

/-- The window splits at the `n` oldest bits. -/
theorem Engine.window_split {e : Engine} {n : Nat} (ha : e.AccOk) (h : n ≤ e.count) :
    e.window = bitsInOrder e.endian n (match e.endian with
      | .be => fun i => e.reg.getLsbD (e.count - n + i)
      | .le => e.reg.getLsbD) ++ (e.dropOldest n).window := by
  have hc := Engine.dropOldest_count (n := n) ha.1
  simp only [Engine.window, hc]
  change _ = _ ++ bitsInOrder e.endian (e.count - n) _
  cases hd : e.endian
  · simp only [bitsInOrder]
    rw [bitsDown_split n h]
    congr 1
    refine bitsDown_congr fun i hi => ?_
    simp [Engine.dropOldest_getLsbD, hd, hi]
  · simp only [bitsInOrder]
    rw [bitsUp_split n h]
    congr 1
    refine bitsUp_congr fun i hi => ?_
    simp [Engine.dropOldest_getLsbD, hd]

theorem sliceData_getLsbD (r : RegWord) (lo n i : Nat) (hi : i < n) (hn : n ≤ 64) :
    (sliceData r lo n).getLsbD i = r.getLsbD (lo + i) := by
  simp only [sliceData, BitVec.getLsbD_setWidth, BitVec.getLsbD_extractLsb']
  simp [hi]; omega

theorem sliceByte_getLsbD (r : RegWord) (lo i : Nat) (hi : i < 8) : (sliceByte r lo).getLsbD i = r.getLsbD (lo + i) := by
  simp [sliceByte, hi]

theorem sliceData_lt (r : RegWord) (lo n : Nat) : (sliceData r lo n).toNat < 2 ^ n := by
  simp only [sliceData, BitVec.toNat_setWidth]
  exact Nat.lt_of_le_of_lt (Nat.mod_le _ _) (r.extractLsb' lo n).isLt

/-- `look` and `take` return an `n`-bit field (R102). -/
theorem Engine.oldest_lt (e : Engine) (n : Nat) : (e.oldest n).toNat < 2 ^ n := by
  cases hd : e.endian <;> simp only [Engine.oldest, hd] <;> exact sliceData_lt _ _ _

/-- The field `take` and `look` return is the `n` oldest bits (R102, R103, R110). -/
theorem Engine.oldest_spec {e : Engine} {n : Nat} (ha : e.AccOk) (hn : n ≤ 64) (h : n ≤ e.count) :
    e.window = fieldBits e.endian n (e.oldest n) ++ (e.dropOldest n).window := by
  rw [Engine.window_split ha h]
  congr 1
  cases hd : e.endian
  · refine bitsInOrder_congr fun i hi => ?_
    simp [Engine.oldest, hd, sliceData_getLsbD _ _ _ _ hi hn]
  · refine bitsInOrder_congr fun i hi => ?_
    simp [Engine.oldest, hd, sliceData_getLsbD _ _ _ _ hi hn]

theorem Engine.take_eq (e : Engine) (n : Nat) :
    e.take n = if e.count < n then none else some (e.oldest n, e.dropOldest n) := rfl

/-- The byte `drain_byte` returns is the 8 oldest bits (R106). -/
theorem Engine.drainByte_spec {e f : Engine} {b : Byte} (ha : e.AccOk) (h : e.drainByte = some (b, f)) :
    e.window = byteBits e.endian b ++ f.window ∧ f.count + 8 = e.count ∧ f.AccOk ∧ e.SameConfig f := by
  by_cases hc : e.count < 8
  · simp [Engine.drainByte, Engine.frontByte, hc] at h
  · simp only [Engine.drainByte, Engine.frontByte, Engine.dropByte, hc, if_false, Option.some.injEq, Prod.mk.injEq] at h
    obtain ⟨hb, rfl⟩ := h
    refine ⟨?_, by rw [Engine.dropOldest_count ha.1]; omega, Engine.dropOldest_accOk 8 ha, Engine.dropOldest_sameConfig e 8⟩
    rw [Engine.window_split ha (show 8 ≤ e.count by omega)]
    congr 1
    subst hb
    cases hd : e.endian
    · refine bitsInOrder_congr fun i hi => ?_
      simp [sliceByte_getLsbD _ _ _ hi]
    · refine bitsInOrder_congr fun i hi => ?_
      simp [sliceByte_getLsbD _ _ _ hi]

/-- `drain_byte` answers exactly when a full byte is there (R106). -/
theorem Engine.drainByte_isSome (e : Engine) : e.drainByte.isSome = decide (8 ≤ e.count) := by
  by_cases hc : e.count < 8
  · simp [Engine.drainByte, Engine.frontByte, hc]
  · simp [Engine.drainByte, Engine.frontByte, Engine.dropByte, hc]; omega

/-- The padded byte is the window and then zeros (R107). -/
theorem Engine.padByte_spec {e : Engine} {b : Byte} (ha : e.AccOk) (h : e.padByte = some b) :
    byteBits e.endian b = e.window ++ zeros (8 - e.count) ∧ 0 < e.count ∧ e.count < 8 := by
  by_cases hc : e.count = 0 ∨ e.count ≥ 8
  · simp [Engine.padByte, hc] at h
  · have h8 : e.count < 8 := by omega
    simp only [Engine.padByte, hc, if_false, Option.some.injEq] at h
    refine ⟨?_, by omega, h8⟩
    subst h
    simp only [byteBits, Engine.window, ← bitsInOrder_zero e.endian]
    cases hd : e.endian
    · simp only [bitsInOrder]
      rw [bitsDown_split e.count h8.le]
      congr 1
      · refine bitsDown_congr fun i hi => ?_
        rw [sliceByte_getLsbD _ _ _ (by omega)]
        simp [BitVec.getLsbD_shiftLeft]; omega
      · refine bitsDown_congr fun i hi => ?_
        rw [sliceByte_getLsbD _ _ _ (by omega)]
        simp [BitVec.getLsbD_shiftLeft]; omega
    · simp only [bitsInOrder]
      rw [bitsUp_split e.count h8.le]
      congr 1
      · refine bitsUp_congr fun i hi => ?_
        rw [sliceByte_getLsbD _ _ _ (by omega)]; simp
      · refine bitsUp_congr fun i hi => ?_
        rw [sliceByte_getLsbD _ _ _ (by omega)]
        exact ha.high (by omega)

theorem Engine.clear_accOk (e : Engine) : e.clear.AccOk :=
  Engine.accOk_of_high (Nat.zero_le _) fun i _ => by simp

theorem Engine.clear_window (e : Engine) : e.clear.window = [] := by
  rw [← List.length_eq_zero_iff, Engine.window_length]; rfl

end Sys2Proof.Machine
end

