-- ==== Sys2Proof/Laws/Ports.lean ====
section
/-! SUPPORT. What a run of pulls or offers does to a port's agent (20_memory R52 to R55): the records only grow, in order. -/

namespace Sys2Proof.Machine

/-! ### The source -/

theorem Source.answers_length (k : Nat) (q : Source) : (Source.answers k q).length = k := by
  induction k generalizing q with
  | zero => rfl
  | succ k ih => simp [Source.answers, ih]

theorem Source.answers_cons {k : Nat} {q : Source} {a : SourceAnswer} {l : List SourceAnswer}
    (h : q.answers k = a :: l) : ∃ m, k = m + 1 ∧ q.answer = a ∧ q.pulled.answers m = l := by
  cases k with
  | zero => simp [Source.answers] at h
  | succ m =>
    simp only [Source.answers, List.cons.injEq] at h
    exact ⟨m, rfl, h.1, h.2⟩

theorem Source.pulled_byte {q : Source} {b : Byte} (h : q.answer = .byte b) : q.pulled.delivered = q.delivered ++ [b] := by
  simp [Source.pulled, h]

theorem Source.pulled_eos {q : Source} (h : q.answer = .eos) : q.pulled.delivered = q.delivered := by
  simp [Source.pulled, h]

@[simp] theorem Source.after_pulls (k : Nat) (q : Source) : (q.after k).pulls = q.pulls + k := by
  induction k generalizing q with
  | zero => rfl
  | succ k ih => simp [Source.after, ih]; omega

theorem Source.after_add (j k : Nat) (q : Source) : q.after (j + k) = (q.after j).after k := by
  induction j generalizing q with
  | zero => simp [Source.after]
  | succ j ih => rw [Nat.succ_add]; exact ih q.pulled

/-- Bytes answered are bytes delivered, in order. -/
theorem Source.after_delivered {k : Nat} {q : Source} {bs : List Byte} (h : q.answers k = bs.map .byte) :
    (q.after k).delivered = q.delivered ++ bs := by
  induction bs generalizing k q with
  | nil =>
    cases k with
    | zero => simp [Source.after]
    | succ k => simp [Source.answers] at h
  | cons b bs ih =>
    obtain ⟨m, rfl, ha, hl⟩ := Source.answers_cons h
    rw [show q.after (m + 1) = q.pulled.after m from rfl, ih hl, Source.pulled_byte ha]
    simp

/-! ### The sink -/

theorem Sink.answer_congr {q r : Sink} (h0 : q.owner = r.owner) (h1 : q.script = r.script)
    (h2 : q.deterministic = r.deterministic) (h3 : q.offers = r.offers) : q.answer = r.answer := by
  simp [Sink.answer, h0, h1, h2, h3]

theorem Sink.answers_congr {k : Nat} {q r : Sink} (h0 : q.owner = r.owner) (h1 : q.script = r.script)
    (h2 : q.deterministic = r.deterministic) (h3 : q.offers = r.offers) : q.answers k = r.answers k := by
  induction k generalizing q r with
  | zero => rfl
  | succ k ih =>
    simp only [Sink.answers, Sink.answer_congr h0 h1 h2 h3, List.cons.injEq, true_and]
    exact ih h0 (by simp [h1]) h2 (by simp [h3])

theorem Sink.answers_cons {k : Nat} {q : Sink} {a : SinkAnswer} {l : List SinkAnswer} (b : Byte)
    (h : q.answers k = a :: l) : ∃ m, k = m + 1 ∧ q.answer = a ∧ (q.offered b).answers m = l := by
  cases k with
  | zero => simp [Sink.answers] at h
  | succ m =>
    simp only [Sink.answers, List.cons.injEq] at h
    refine ⟨m, rfl, h.1, ?_⟩
    rw [← h.2]
    exact Sink.answers_congr rfl rfl rfl rfl

theorem Sink.offered_accept {q : Sink} (b : Byte) (h : q.answer = .accept) : (q.offered b).bytes = q.bytes ++ [b] := by
  simp [Sink.offered, h]

theorem Sink.offered_refuse {q : Sink} (b : Byte) (h : q.answer = .refuse) : (q.offered b).bytes = q.bytes := by
  simp [Sink.offered, h]

@[simp] theorem Sink.offeredAll_offers (bs : List Byte) (q : Sink) : (q.offeredAll bs).offers = q.offers + bs.length := by
  induction bs generalizing q with
  | nil => rfl
  | cons b bs ih => simp [Sink.offeredAll, ih]; omega

theorem Sink.offeredAll_append (bs cs : List Byte) (q : Sink) : q.offeredAll (bs ++ cs) = (q.offeredAll bs).offeredAll cs := by
  induction bs generalizing q with
  | nil => rfl
  | cons b bs ih => exact ih (q.offered b)

/-- The answers that come after `bs` were offered are the later ones of the sequence. -/
theorem Sink.answers_after {q : Sink} {bs : List Byte} {k : Nat} {l : List SinkAnswer}
    (h : q.answers k = List.replicate bs.length .accept ++ l) :
    (q.offeredAll bs).answers (k - bs.length) = l ∧ (q.offeredAll bs).bytes = q.bytes ++ bs := by
  induction bs generalizing q k with
  | nil => exact ⟨h, (List.append_nil _).symm⟩
  | cons b bs ih =>
    obtain ⟨m, rfl, ha, hl⟩ := Sink.answers_cons b (by simpa [List.replicate_succ] using h)
    obtain ⟨h1, h2⟩ := ih hl
    refine ⟨?_, ?_⟩
    · simpa [Sink.offeredAll] using h1
    · simpa [Sink.offeredAll, Sink.offered_accept b ha] using h2

end Sys2Proof.Machine
end

