-- ==== Sys2Proof/Laws/Drain.lean ====
section
/-! SUPPORT. What a drain and a flush can do (43_writer R181, R186 to R188): with every offer accepted, and with a refusal. -/

namespace Sys2Proof.Machine

/-- `drain_byte` when a full byte is there, with what it leaves (40_accumulator R106). -/
theorem Engine.drainByte_some {e : Engine} (ha : e.AccOk) (h : 8 ≤ e.count) :
    ∃ b f, e.drainByte = some (b, f) ∧ e.window = byteBits e.endian b ++ f.window ∧ f.count + 8 = e.count ∧ f.AccOk ∧
      e.SameConfig f := by
  have hs : e.drainByte.isSome := by simpa [Engine.drainByte_isSome] using h
  obtain ⟨⟨b, f⟩, hbf⟩ := Option.isSome_iff_exists.mp hs
  exact ⟨b, f, hbf, Engine.drainByte_spec ha hbf⟩

/-- `k` offers accepted: the window gives up the bytes offered (R181). -/
theorem drainBytes_accept {k : Nat} {s : State} (ha : s.engine.AccOk) (hk : 8 * k ≤ s.engine.count)
    (h : s.sink.answers k = List.replicate k .accept) :
    ∃ bs e, drainBytes k s = .done { s with engine := e, sink := s.sink.offeredAll bs } ∧ bs.length = k ∧
      s.engine.window = streamBits s.engine.endian bs ++ e.window ∧ e.count + 8 * k = s.engine.count ∧ e.AccOk ∧
      s.engine.SameConfig e := by
  induction k generalizing s with
  | zero => exact ⟨[], s.engine, rfl, rfl, rfl, rfl, ha, .refl _⟩
  | succ k ih =>
    obtain ⟨b, f, hbf, hw, hc, hok, hs⟩ := Engine.drainByte_some ha (by omega)
    obtain ⟨m, hm, hb, hl⟩ := Sink.answers_cons b (by simpa [List.replicate_succ] using h)
    obtain rfl : m = k := by omega
    obtain ⟨bs, e, he, hlen, hw', hc', hok', hs'⟩ := ih (s := (s.offered b).withEngine f) hok
      (by simp only [State.withEngine_engine]; omega) hl
    refine ⟨b :: bs, e, ?_, by simp [hlen], ?_, ?_, hok', ?_⟩
    · simp only [drainBytes, hbf, hb, he]; rfl
    · simp only [State.withEngine_engine, hs.2.2.1] at hw'
      rw [hw, hw', streamBits_cons, List.append_assoc]
    · simp only [State.withEngine_engine] at hc'; omega
    · exact hs.trans hs'

/-- A refusal ends the drain and keeps the refused byte first in the accumulator (R181, R182). -/
theorem drainBytes_refuse {k j : Nat} {s : State} {rest : List SinkAnswer} (ha : s.engine.AccOk) (hk : 8 * k ≤ s.engine.count)
    (h : s.sink.answers k = List.replicate j .accept ++ .refuse :: rest) :
    ∃ bs b e, drainBytes k s = .refused { s with engine := e, sink := s.sink.offeredAll (bs ++ [b]) } ∧ bs.length = j ∧
      s.engine.window = streamBits s.engine.endian bs ++ e.window ∧ e.count + 8 * j = s.engine.count ∧ e.AccOk ∧
      s.engine.SameConfig e ∧ e.frontByte = some b := by
  induction j generalizing k s with
  | zero =>
    obtain ⟨m, rfl, hb, -⟩ := Sink.answers_cons 0#8 h
    obtain ⟨b, f, hbf, -⟩ := Engine.drainByte_some ha (by omega)
    refine ⟨[], b, s.engine, ?_, rfl, rfl, rfl, ha, .refl _, ?_⟩
    · simp only [drainBytes, hbf, hb]; rfl
    · unfold Engine.drainByte at hbf
      split at hbf
      · rename_i h1 _; cases hbf; exact h1
      · cases hbf
  | succ j ih =>
    rw [List.replicate_succ, List.cons_append] at h
    obtain ⟨m, hm, -⟩ := Sink.answers_cons 0#8 h
    subst hm
    obtain ⟨b, f, hbf, hw, hc, hok, hs⟩ := Engine.drainByte_some ha (by omega)
    obtain ⟨m', hm', hb, hl⟩ := Sink.answers_cons b h
    obtain rfl : m' = m := by omega
    obtain ⟨bs, b', e, he, hlen, hw', hc', hok', hs', hf⟩ := ih (s := (s.offered b).withEngine f) hok
      (by simp only [State.withEngine_engine]; omega) hl
    refine ⟨b :: bs, b', e, ?_, by simp [hlen], ?_, ?_, hok', ?_, hf⟩
    · simp only [drainBytes, hbf, hb, he]; rfl
    · simp only [State.withEngine_engine, hs.2.2.1] at hw'
      rw [hw, hw', streamBits_cons, List.append_assoc]
    · simp only [State.withEngine_engine] at hc'; omega
    · exact hs.trans hs'

/-- The state a drain or a flush ends in, if it ends in one. -/
def Drain.state : Drain → Option State
  | .done t => some t
  | .refused t => some t
  | .undefined t => some t
  | .never => none

/-- However it ends, a drain changes only the engine's accumulator and the sink. -/
theorem drainBytes_frame {k : Nat} {s t : State} (h : (drainBytes k s).state = some t) :
    t.source = s.source ∧ t.host = s.host ∧ t.prefetch = s.prefetch ∧ s.engine.SameConfig t.engine := by
  induction k generalizing s with
  | zero => simp only [drainBytes, Drain.state, Option.some.injEq] at h; subst h; exact ⟨rfl, rfl, rfl, .refl _⟩
  | succ k ih =>
    simp only [drainBytes] at h
    split at h
    · rename_i b f hbf
      have hs : s.engine.SameConfig f := by
        unfold Engine.drainByte Engine.dropByte at hbf
        split at hbf
        · rename_i h2
          cases hbf
          split at h2
          · cases h2
          · cases h2; exact ⟨rfl, rfl, rfl, rfl⟩
        · cases hbf
      split at h
      · obtain ⟨h1, h2, h3, h4⟩ := ih h
        exact ⟨h1, h2, h3, hs.trans h4⟩
      · simp only [Drain.state, Option.some.injEq] at h; subst h; exact ⟨rfl, rfl, rfl, .refl _⟩
      · simp [Drain.state] at h
    · simp only [Drain.state, Option.some.injEq] at h; subst h; exact ⟨rfl, rfl, rfl, .refl _⟩

/-- However it ends, a drain keeps the accumulator invariant. -/
theorem drainBytes_accOk {k : Nat} {s t : State} (h : (drainBytes k s).state = some t) (ha : s.engine.AccOk) : t.engine.AccOk := by
  induction k generalizing s with
  | zero => simp only [drainBytes, Drain.state, Option.some.injEq] at h; subst h; exact ha
  | succ k ih =>
    simp only [drainBytes] at h
    split at h
    · rename_i b f hbf
      split at h
      · exact ih h (Engine.drainByte_spec ha hbf).2.2.1
      · simp only [Drain.state, Option.some.injEq] at h; subst h; exact ha
      · simp [Drain.state] at h
    · simp only [Drain.state, Option.some.injEq] at h; subst h; exact ha

/-- However it ends, the pad changes only the accumulator and the sink. -/
theorem padOut_frame {s t : State} (h : (padOut s).state = some t) :
    t.source = s.source ∧ t.host = s.host ∧ t.prefetch = s.prefetch ∧ s.engine.SameConfig t.engine ∧ (s.engine.AccOk → t.engine.AccOk) := by
  unfold padOut at h
  split at h
  · split at h
    · split at h
      · simp only [Drain.state, Option.some.injEq] at h; subst h
        exact ⟨rfl, rfl, rfl, ⟨rfl, rfl, rfl, rfl⟩, fun _ => Engine.clear_accOk _⟩
      · simp only [Drain.state, Option.some.injEq] at h; subst h
        exact ⟨rfl, rfl, rfl, .refl _, id⟩
      · simp [Drain.state] at h
    · simp only [Drain.state, Option.some.injEq] at h; subst h
      exact ⟨rfl, rfl, rfl, .refl _, id⟩
  · simp only [Drain.state, Option.some.injEq] at h; subst h
    exact ⟨rfl, rfl, rfl, .refl _, id⟩

/-- However it ends, a flush changes only the accumulator and the sink, and keeps the accumulator invariant. -/
theorem flushAll_frame {s t : State} (h : (flushAll s).state = some t) :
    t.source = s.source ∧ t.host = s.host ∧ t.prefetch = s.prefetch ∧ s.engine.SameConfig t.engine ∧ (s.engine.AccOk → t.engine.AccOk) := by
  unfold flushAll drainAll at h
  split at h
  · rename_i u hu
    obtain ⟨h1, h2, h3, h4⟩ := drainBytes_frame (t := u) (by rw [hu]; rfl)
    obtain ⟨g1, g2, g3, g4, g5⟩ := padOut_frame h
    exact ⟨g1.trans h1, g2.trans h2, g3.trans h3, h4.trans g4, fun ha => g5 (drainBytes_accOk (t := u) (by rw [hu]; rfl) ha)⟩
  all_goals first
    | (rename_i u hu
       obtain ⟨h1, h2, h3, h4⟩ := drainBytes_frame (t := u) (by rw [hu]; rfl)
       simp only [Drain.state, Option.some.injEq] at h; subst h
       exact ⟨h1, h2, h3, h4, fun ha => drainBytes_accOk (t := u) (by rw [hu]; rfl) ha⟩)
    | simp [Drain.state] at h

/-- The count after the oldest bits are dropped, whatever it was. -/
theorem Engine.dropOldest_count_eq (e : Engine) (n : Nat) : (e.dropOldest n).count = e.count - n := by
  change (countOf (e.count - n)).toNat = _
  simp only [countOf, BitVec.toNat_ofNat]
  have := e.count_lt; omega

/-- A drain that is done has given up all its bytes. -/
theorem drainBytes_done_count {k : Nat} {s t : State} (h : drainBytes k s = .done t) : t.engine.count + 8 * k = s.engine.count := by
  induction k generalizing s with
  | zero => simp [drainBytes] at h; subst h; simp
  | succ k ih =>
    simp only [drainBytes] at h
    split at h
    · rename_i b f hbf
      have hf : f.count + 8 = s.engine.count := by
        unfold Engine.drainByte Engine.dropByte at hbf
        split at hbf
        · rename_i h2
          cases hbf
          split at h2
          · cases h2
          · cases h2; rw [Engine.dropOldest_count_eq]; omega
        · cases hbf
      split at h
      · have := ih h; simp only [State.withEngine_engine] at this; omega
      · cases h
      · cases h
    · cases h

/-- A drain ends at a refusal only where the sink answered one (R182). -/
theorem drainBytes_refuse_mem {k : Nat} {s u : State} (h : drainBytes k s = .refused u) : .refuse ∈ s.sink.answers k := by
  induction k generalizing s with
  | zero => cases h
  | succ k ih =>
    simp only [drainBytes] at h
    simp only [Sink.answers, List.mem_cons]
    split at h
    · rename_i b f _
      split at h
      · refine .inr ?_
        have := ih h
        have e : ((s.offered b).withEngine f).sink.answers k =
            ({ s.sink with script := s.sink.script.tail, offers := s.sink.offers + 1 } : Sink).answers k :=
          Sink.answers_congr rfl rfl rfl rfl
        rw [e] at this; exact this
      · rename_i ha; exact .inl ha.symm
      · cases h
    · cases h

/-- No offer changes whose sink it is (log 21). -/
theorem drainBytes_owner {k : Nat} {s t : State} (h : (drainBytes k s).state = some t) : t.sink.owner = s.sink.owner := by
  induction k generalizing s with
  | zero => simp only [drainBytes, Drain.state, Option.some.injEq] at h; subst h; rfl
  | succ k ih =>
    simp only [drainBytes] at h
    split at h
    · split at h
      · exact (ih h :)
      · simp only [Drain.state, Option.some.injEq] at h; subst h; rfl
      · simp [Drain.state] at h
    · simp only [Drain.state, Option.some.injEq] at h; subst h; rfl

end Sys2Proof.Machine
end

