-- ==== Sys2Proof/Laws/Fill.lean ====
section
/-! SUPPORT. What a refill can do (41_reader R132 to R136): with bytes answered, with an end of stream, with no answer; and what it leaves
unchanged however it ends. -/

namespace Sys2Proof.Machine

/-- The state a refill ends in, if it ends. -/
def Fill.state : Fill → Option State
  | .done t => some t
  | .eos t => some t
  | .overflow t => some t
  | .never => none

/-- However it ends, a refill changes only the engine's accumulator and the source. -/
theorem fillBytes_frame {k : Nat} {s t : State} (h : (fillBytes k s).state = some t) :
    t.sink = s.sink ∧ t.host = s.host ∧ t.prefetch = s.prefetch ∧ s.engine.SameConfig t.engine := by
  induction k generalizing s with
  | zero => simp only [fillBytes, Fill.state, Option.some.injEq] at h; subst h; exact ⟨rfl, rfl, rfl, .refl _⟩
  | succ k ih =>
    simp only [fillBytes] at h
    split at h
    · split at h
      · rename_i e he
        have := ih h
        rw [Engine.refill_eq] at he
        split at he
        · cases he
        · cases he; exact this
      · simp only [Fill.state, Option.some.injEq] at h; subst h; exact ⟨rfl, rfl, rfl, .refl _⟩
    · simp only [Fill.state, Option.some.injEq] at h; subst h; exact ⟨rfl, rfl, rfl, .refl _⟩
    · simp [Fill.state] at h

/-- `k` bytes answered: the window grows by their bits (R133). -/
theorem fillBytes_bytes {k : Nat} {s : State} {bs : List Byte} (ha : s.engine.AccOk) (hk : s.engine.count + 8 * k ≤ cntMax)
    (h : s.source.answers k = bs.map .byte) :
    ∃ e, fillBytes k s = .done { s with engine := e, source := s.source.after k } ∧
      e.window = s.engine.window ++ streamBits s.engine.endian bs ∧ e.count = s.engine.count + 8 * k ∧ e.AccOk ∧
      s.engine.SameConfig e := by
  induction k generalizing s bs with
  | zero =>
    obtain rfl : bs = [] := by simpa [Source.answers] using h.symm
    exact ⟨s.engine, rfl, by simp, by simp, ha, .refl _⟩
  | succ k ih =>
    cases bs with
    | nil => simp [Source.answers] at h
    | cons b bs =>
      simp only [Source.answers, List.map_cons, List.cons.injEq] at h
      obtain ⟨hb, hl⟩ := h
      have hr : s.engine.refill b = some (s.engine.insert (widenByte b) 8) := by
        rw [Engine.refill_eq, if_neg (by unfold cntMax at hk ⊢; omega)]
      obtain ⟨hw, hc, hok, hs⟩ := Engine.refill_spec ha hr
      obtain ⟨e, he, hw', hc', hok', hs'⟩ := ih (s := s.pulled.withEngine (s.engine.insert (widenByte b) 8)) hok
        (by simp only [State.withEngine_engine]; omega) hl
      refine ⟨e, ?_, ?_, ?_, hok', ?_⟩
      · simp only [fillBytes, hb, hr, he]; rfl
      · rw [hw']; simp only [State.withEngine_engine, hw, hs.2.2.1, streamBits_cons, List.append_assoc]
      · rw [hc']; simp only [State.withEngine_engine]; omega
      · exact hs.trans hs'

/-- An EOS among the mandatory pulls ends the refill there (R133, R134). -/
theorem fillBytes_eos {k : Nat} {s : State} {bs : List Byte} {rest : List SourceAnswer}
    (hk : s.engine.count + 8 * k ≤ cntMax) (h : s.source.answers k = bs.map .byte ++ .eos :: rest) :
    ∃ e, fillBytes k s = .eos { s with engine := e, source := s.source.after (bs.length + 1) } ∧ s.engine.SameConfig e := by
  induction bs generalizing k s with
  | nil =>
    obtain ⟨m, rfl, ha, -⟩ := Source.answers_cons h
    exact ⟨s.engine, by simp only [fillBytes, ha]; rfl, rfl, rfl, rfl, rfl⟩
  | cons b bs ih =>
    obtain ⟨m, rfl, hb, hl⟩ := Source.answers_cons h
    have hr : s.engine.refill b = some (s.engine.insert (widenByte b) 8) := by
      rw [Engine.refill_eq, if_neg (by unfold cntMax at hk ⊢; omega)]
    have hc : (s.engine.insert (widenByte b) 8).count = s.engine.count + 8 :=
      Engine.insert_count (by unfold cntMax at hk ⊢; omega)
    obtain ⟨e, he, hs⟩ := ih (s := s.pulled.withEngine (s.engine.insert (widenByte b) 8))
      (by simp only [State.withEngine_engine]; omega) hl
    exact ⟨e, by simp only [fillBytes, hb, hr, he]; rfl, hs⟩

/-- A mandatory pull that is never answered hangs the refill (20_memory R56). -/
theorem fillBytes_never {k : Nat} {s : State} {bs : List Byte} {rest : List SourceAnswer}
    (hk : s.engine.count + 8 * k ≤ cntMax) (h : s.source.answers k = bs.map .byte ++ .never :: rest) :
    fillBytes k s = .never := by
  induction bs generalizing k s with
  | nil =>
    obtain ⟨m, rfl, ha, -⟩ := Source.answers_cons h
    simp only [fillBytes, ha]
  | cons b bs ih =>
    obtain ⟨m, rfl, hb, hl⟩ := Source.answers_cons h
    have hr : s.engine.refill b = some (s.engine.insert (widenByte b) 8) := by
      rw [Engine.refill_eq, if_neg (by unfold cntMax at hk ⊢; omega)]
    have hc : (s.engine.insert (widenByte b) 8).count = s.engine.count + 8 :=
      Engine.insert_count (by unfold cntMax at hk ⊢; omega)
    simp only [fillBytes, hb, hr]
    exact ih (by simp only [State.withEngine_engine]; omega) hl

/-- `k` optional pulls, all answered in some way: the bytes before the first EOS are merged, and an EOS is silent (R136). -/
theorem prefetchBytes_spec {k : Nat} {s : State} (ha : s.engine.AccOk) (hk : s.engine.count + 8 * k ≤ cntMax)
    (h : ∀ a ∈ s.source.answers k, a ≠ .never) :
    ∃ e j, prefetchBytes k s = .done { s with engine := e, source := s.source.after j } ∧
      j = min k ((leadingBytes (s.source.answers k)).length + 1) ∧
      e.window = s.engine.window ++ streamBits s.engine.endian (leadingBytes (s.source.answers k)) ∧
      e.count = s.engine.count + 8 * (leadingBytes (s.source.answers k)).length ∧ e.AccOk ∧ s.engine.SameConfig e := by
  induction k generalizing s with
  | zero => exact ⟨s.engine, 0, rfl, rfl, by simp [Source.answers, leadingBytes], rfl, ha, .refl _⟩
  | succ k ih =>
    cases hb : s.source.answer with
    | byte b =>
      have hr : s.engine.refill b = some (s.engine.insert (widenByte b) 8) := by
        rw [Engine.refill_eq, if_neg (by unfold cntMax at hk ⊢; omega)]
      obtain ⟨hw, hc, hok, hs⟩ := Engine.refill_spec ha hr
      obtain ⟨e, j, he, hj, hw', hc', hok', hs'⟩ := ih (s := s.pulled.withEngine (s.engine.insert (widenByte b) 8)) hok
        (by simp only [State.withEngine_engine]; omega) (fun a hm => h a (List.mem_cons_of_mem _ hm))
      refine ⟨e, j + 1, ?_, ?_, ?_, ?_, hok', ?_⟩
      · simp only [prefetchBytes, hb, hr, he]; rfl
      · simp only [Source.answers, hb, leadingBytes, List.length_cons, State.withEngine_source, State.pulled_source] at hj ⊢; omega
      · rw [hw']
        simp only [State.withEngine_engine, State.withEngine_source, State.pulled_source, hw, hs.2.2.1, Source.answers, hb, leadingBytes,
          streamBits_cons, List.append_assoc]
      · rw [hc']
        simp only [State.withEngine_engine, State.withEngine_source, State.pulled_source, Source.answers, hb, leadingBytes, List.length_cons]
        omega
      · exact hs.trans hs'
    | eos =>
      exact ⟨s.engine, 1, by simp only [prefetchBytes, hb]; rfl, by simp [Source.answers, hb, leadingBytes],
        by simp [Source.answers, hb, leadingBytes], by simp [Source.answers, hb, leadingBytes], ha, .refl _⟩
    | never => exact absurd hb (h _ (List.mem_cons_self ..))

/-- After the mandatory bytes the request is covered and the accumulator is not over-full (R132). -/
theorem Engine.need_spec {e : Engine} {n : Nat} (hc : e.count ≤ cntMax) (hn : n ≤ fieldMax) :
    e.count + 8 * e.need n ≤ cntMax ∧ n ≤ e.count + 8 * e.need n ∧
      (0 < e.need n → e.count < n ∧ e.count + 8 * e.need n ≤ n + 7) := by
  unfold Engine.need ceilDiv cntMax fieldMax at *
  split <;> omega

/-- However it ends, the mandatory refill keeps the accumulator invariant. -/
theorem fillBytes_accOk {k : Nat} {s t : State} (h : (fillBytes k s).state = some t) (ha : s.engine.AccOk) : t.engine.AccOk := by
  induction k generalizing s with
  | zero => simp only [fillBytes, Fill.state, Option.some.injEq] at h; subst h; exact ha
  | succ k ih =>
    simp only [fillBytes] at h
    split at h
    · split at h
      · rename_i e he
        exact ih h (Engine.refill_spec ha he).2.2.1
      · simp only [Fill.state, Option.some.injEq] at h; subst h; exact ha
    · simp only [Fill.state, Option.some.injEq] at h; subst h; exact ha
    · simp [Fill.state] at h

/-- However it ends, the prefetch changes only the accumulator and the source. -/
theorem prefetchBytes_frame {k : Nat} {s t : State} (h : (prefetchBytes k s).state = some t) :
    t.sink = s.sink ∧ t.host = s.host ∧ t.prefetch = s.prefetch ∧ s.engine.SameConfig t.engine := by
  induction k generalizing s with
  | zero => simp only [prefetchBytes, Fill.state, Option.some.injEq] at h; subst h; exact ⟨rfl, rfl, rfl, .refl _⟩
  | succ k ih =>
    simp only [prefetchBytes] at h
    split at h
    · split at h
      · rename_i e he
        have := ih h
        rw [Engine.refill_eq] at he
        split at he
        · cases he
        · cases he; exact this
      · simp only [Fill.state, Option.some.injEq] at h; subst h; exact ⟨rfl, rfl, rfl, .refl _⟩
    · simp only [Fill.state, Option.some.injEq] at h; subst h; exact ⟨rfl, rfl, rfl, .refl _⟩
    · simp [Fill.state] at h

/-- However it ends, the prefetch keeps the accumulator invariant. -/
theorem prefetchBytes_accOk {k : Nat} {s t : State} (h : (prefetchBytes k s).state = some t) (ha : s.engine.AccOk) : t.engine.AccOk := by
  induction k generalizing s with
  | zero => simp only [prefetchBytes, Fill.state, Option.some.injEq] at h; subst h; exact ha
  | succ k ih =>
    simp only [prefetchBytes] at h
    split at h
    · split at h
      · rename_i e he
        exact ih h (Engine.refill_spec ha he).2.2.1
      · simp only [Fill.state, Option.some.injEq] at h; subst h; exact ha
    · simp only [Fill.state, Option.some.injEq] at h; subst h; exact ha
    · simp [Fill.state] at h

/-- However it ends, the refill of READ and PEEK keeps the accumulator invariant. -/
theorem readerFill_accOk {n : Nat} {s t : State} (h : (readerFill n s).state = some t) (ha : s.engine.AccOk) : t.engine.AccOk := by
  unfold readerFill bulkFill stdFill optionalFill at h
  split at h
  · exact fillBytes_accOk h ha
  · split at h
    · rename_i u hu
      have hu' := fillBytes_accOk (t := u) (by rw [hu]; rfl) ha
      split at h
      · exact prefetchBytes_accOk h hu'
      · simp only [Fill.state, Option.some.injEq] at h; subst h; exact hu'
    · rename_i u hu
      simp only [Fill.state, Option.some.injEq] at h; subst h
      exact fillBytes_accOk (t := u) (by rw [hu]; rfl) ha
    · rename_i u hu
      simp only [Fill.state, Option.some.injEq] at h; subst h
      exact fillBytes_accOk (t := u) (by rw [hu]; rfl) ha
    · simp [Fill.state] at h

/-- However it ends, the refill of READ and PEEK changes only the accumulator, the source and the prefetch choices. -/
theorem readerFill_frame {n : Nat} {s t : State} (h : (readerFill n s).state = some t) :
    t.sink = s.sink ∧ t.host = s.host ∧ t.prefetch.maxExtra = s.prefetch.maxExtra ∧
      (s.engine.tier = .std → t.prefetch = s.prefetch) ∧ s.engine.SameConfig t.engine := by
  unfold readerFill bulkFill stdFill optionalFill at h
  split at h
  · obtain ⟨h1, h2, h3, h4⟩ := fillBytes_frame h
    exact ⟨h1, h2, by rw [h3], fun _ => h3, h4⟩
  · rename_i hstd
    split at h
    · rename_i u hu
      obtain ⟨h1, h2, h3, h4⟩ := fillBytes_frame (t := u) (by rw [hu]; rfl)
      split at h
      · obtain ⟨g1, g2, g3, g4⟩ := prefetchBytes_frame h
        refine ⟨g1.trans h1, g2.trans h2, ?_, fun h => absurd h hstd, h4.trans g4⟩
        rw [g3, ← h3]; rfl
      · simp only [Fill.state, Option.some.injEq] at h; subst h; exact ⟨h1, h2, by rw [h3], fun _ => h3, h4⟩
    · rename_i u hu
      obtain ⟨h1, h2, h3, h4⟩ := fillBytes_frame (t := u) (by rw [hu]; rfl)
      simp only [Fill.state, Option.some.injEq] at h; subst h
      exact ⟨h1, h2, by rw [h3], fun _ => h3, h4⟩
    · rename_i u hu
      obtain ⟨h1, h2, h3, h4⟩ := fillBytes_frame (t := u) (by rw [hu]; rfl)
      simp only [Fill.state, Option.some.injEq] at h; subst h
      exact ⟨h1, h2, by rw [h3], fun _ => h3, h4⟩
    · simp [Fill.state] at h

/-- With room for its bytes the mandatory refill never overflows (40_accumulator R112). -/
theorem fillBytes_no_overflow {k : Nat} {s : State} (hk : s.engine.count + 8 * k ≤ cntMax) (t : State) : fillBytes k s ≠ .overflow t := by
  induction k generalizing s with
  | zero => simp [fillBytes]
  | succ k ih =>
    simp only [fillBytes]
    split
    · rename_i b _
      rw [Engine.refill_eq, if_neg (by unfold cntMax at hk ⊢; omega)]
      refine ih ?_
      simp only [State.withEngine_engine]; rw [Engine.insert_count (by unfold cntMax at hk ⊢; omega)]; omega
    · simp
    · simp

/-- With room for its bytes the prefetch never overflows (40_accumulator R112). -/
theorem prefetchBytes_no_overflow {k : Nat} {s : State} (hk : s.engine.count + 8 * k ≤ cntMax) (t : State) : prefetchBytes k s ≠ .overflow t := by
  induction k generalizing s with
  | zero => simp [prefetchBytes]
  | succ k ih =>
    simp only [prefetchBytes]
    split
    · rename_i b _
      rw [Engine.refill_eq, if_neg (by unfold cntMax at hk ⊢; omega)]
      refine ih ?_
      simp only [State.withEngine_engine]; rw [Engine.insert_count (by unfold cntMax at hk ⊢; omega)]; omega
    · simp
    · simp

/-- A mandatory refill that is done has received all its bytes. -/
theorem fillBytes_done_count {k : Nat} {s t : State} (hk : s.engine.count + 8 * k ≤ cntMax) (h : fillBytes k s = .done t) :
    t.engine.count = s.engine.count + 8 * k := by
  induction k generalizing s with
  | zero => simp [fillBytes] at h; subst h; rfl
  | succ k ih =>
    simp only [fillBytes] at h
    split at h
    · rename_i b _
      rw [Engine.refill_eq, if_neg (by unfold cntMax at hk ⊢; omega)] at h
      have hc : (s.engine.insert (widenByte b) 8).count = s.engine.count + 8 := Engine.insert_count (by unfold cntMax at hk ⊢; omega)
      rw [ih (by simp only [State.withEngine_engine, hc]; omega) h]
      simp only [State.withEngine_engine, hc]; omega
    · cases h
    · cases h

/-- The mandatory bytes of a width of at most 64 fit, whatever the count is. -/
theorem Engine.need_le (e : Engine) {n : Nat} (hn : n ≤ 64) : e.need n = 0 ∨ e.count + 8 * e.need n ≤ 71 := by
  unfold Engine.need ceilDiv; split
  · left; rfl
  · right; omega

/-- The refill for a width of at most 64 never overflows. -/
theorem stdFill_no_overflow (s : State) {n : Nat} (hn : n ≤ 64) (t : State) : stdFill n s ≠ .overflow t := by
  unfold stdFill
  rcases Engine.need_le s.engine hn with h | h
  · rw [h]; simp [fillBytes]
  · exact fillBytes_no_overflow (by unfold cntMax; omega) t

/-- What the count is after a refill. -/
theorem stdFill_done_count {s t : State} {n : Nat} (hn : n ≤ 64) (h : stdFill n s = .done t) :
    t.engine.count = s.engine.count + 8 * s.engine.need n := by
  unfold stdFill at h
  rcases Engine.need_le s.engine hn with h' | h'
  · rw [h'] at h; simp [fillBytes] at h; subst h; omega
  · exact fillBytes_done_count (by unfold cntMax; omega) h

/-- READ and PEEK never see an overflow. -/
theorem readerFill_no_overflow (s : State) {n : Nat} (hn : n ≤ 64) (t : State) : readerFill n s ≠ .overflow t := by
  unfold readerFill bulkFill
  split
  · exact stdFill_no_overflow s hn t
  · split
    · rename_i u hu
      split
      · rename_i hpos
        unfold optionalFill
        refine prefetchBytes_no_overflow ?_ t
        have h2 := stdFill_done_count hn hu
        have h3 := Engine.need_le s.engine hn
        have : u.engine.count ≤ 71 := by omega
        change u.engine.count + 8 * u.prefetchCount ≤ _
        unfold State.prefetchCount State.prefetchBound cntMax
        omega
      · simp
    · simp
    · rename_i u hu; exact absurd hu (stdFill_no_overflow s hn u)
    · simp

/-- The mandatory bytes fit, and they cover the request. -/
theorem Engine.need_bounds {e : Engine} {n : Nat} (ha : e.AccOk) (hn : n ≤ 64) :
    e.count + 8 * e.need n ≤ 71 ∧ n ≤ e.count + 8 * e.need n := by
  have := Engine.need_spec (e := e) (n := n) ha.1 (by unfold fieldMax; omega)
  unfold cntMax at this; omega

/-- The refill with every mandatory pull answered by a byte (R133). -/
theorem stdFill_bytes {n : Nat} {s : State} {bs : List Byte} (ha : s.engine.AccOk) (hn : n ≤ 64)
    (h : s.source.answers (s.engine.need n) = bs.map .byte) :
    ∃ e, stdFill n s = .done { s with engine := e, source := s.source.after (s.engine.need n) } ∧
      e.window = s.engine.window ++ streamBits s.engine.endian bs ∧ e.count = s.engine.count + 8 * s.engine.need n ∧ n ≤ e.count ∧ e.AccOk ∧
      s.engine.SameConfig e := by
  have hb := Engine.need_bounds ha hn
  obtain ⟨e, h1, h2, h3, h4, h5⟩ := fillBytes_bytes ha (by unfold cntMax; omega) h
  exact ⟨e, h1, h2, h3, by omega, h4, h5⟩

/-- An optional pull that is never answered hangs the refill (20_memory R56, 70 R277). -/
theorem prefetchBytes_never {k : Nat} {s : State} {bs : List Byte} {rest : List SourceAnswer}
    (hk : s.engine.count + 8 * k ≤ cntMax) (h : s.source.answers k = bs.map .byte ++ .never :: rest) :
    prefetchBytes k s = .never := by
  induction bs generalizing k s with
  | nil =>
    obtain ⟨m, rfl, ha, -⟩ := Source.answers_cons h
    simp only [prefetchBytes, ha]
  | cons b bs ih =>
    obtain ⟨m, rfl, hb, hl⟩ := Source.answers_cons h
    have hr : s.engine.refill b = some (s.engine.insert (widenByte b) 8) := by
      rw [Engine.refill_eq, if_neg (by unfold cntMax at hk ⊢; omega)]
    have hc : (s.engine.insert (widenByte b) 8).count = s.engine.count + 8 :=
      Engine.insert_count (by unfold cntMax at hk ⊢; omega)
    simp only [prefetchBytes, hb, hr]
    exact ih (by simp only [State.withEngine_engine]; omega) hl

/-- A mandatory refill whose pulls are all answered by bytes is done, whatever the accumulator holds (R133). -/
theorem fillBytes_done_of_bytes {k : Nat} {s : State} {bs : List Byte} (hk : s.engine.count + 8 * k ≤ cntMax)
    (h : s.source.answers k = bs.map .byte) :
    ∃ e, fillBytes k s = .done { s with engine := e, source := s.source.after k } ∧ e.count = s.engine.count + 8 * k := by
  induction k generalizing s bs with
  | zero => exact ⟨s.engine, rfl, rfl⟩
  | succ k ih =>
    cases bs with
    | nil => simp [Source.answers] at h
    | cons b bs =>
      obtain ⟨hb, hl⟩ : s.source.answer = .byte b ∧ s.source.pulled.answers k = bs.map .byte := by simpa [Source.answers] using h
      have hr : s.engine.refill b = some (s.engine.insert (widenByte b) 8) := by
        rw [Engine.refill_eq, if_neg (by unfold cntMax at hk ⊢; omega)]
      have hc : (s.engine.insert (widenByte b) 8).count = s.engine.count + 8 := Engine.insert_count (by unfold cntMax at hk ⊢; omega)
      obtain ⟨e, he, hc'⟩ := ih (s := s.pulled.withEngine (s.engine.insert (widenByte b) 8))
        (by simp only [State.withEngine_engine, hc]; omega) hl
      exact ⟨e, by simp only [fillBytes, hb, hr, he]; rfl, by rw [hc']; simp only [State.withEngine_engine, hc]; omega⟩

/-- A mandatory refill ends at an EOS only where the source answered one (R134). -/
theorem fillBytes_eos_mem {k : Nat} {s u : State} (h : fillBytes k s = .eos u) : .eos ∈ s.source.answers k := by
  induction k generalizing s with
  | zero => cases h
  | succ k ih =>
    simp only [fillBytes] at h
    simp only [Source.answers, List.mem_cons]
    split at h
    · split at h
      · exact .inr (ih h)
      · cases h
    · rename_i ha; exact .inl ha.symm
    · cases h

/-- No pull changes whose source it is (log 21). -/
theorem fillBytes_owner {k : Nat} {s t : State} (h : (fillBytes k s).state = some t) : t.source.owner = s.source.owner := by
  induction k generalizing s with
  | zero => simp only [fillBytes, Fill.state, Option.some.injEq] at h; subst h; rfl
  | succ k ih =>
    simp only [fillBytes] at h
    split at h
    · split at h
      · exact (ih h :)
      · simp only [Fill.state, Option.some.injEq] at h; subst h; rfl
    · simp only [Fill.state, Option.some.injEq] at h; subst h; rfl
    · simp [Fill.state] at h

/-- No pull changes whose source it is (log 21). -/
theorem prefetchBytes_owner {k : Nat} {s t : State} (h : (prefetchBytes k s).state = some t) : t.source.owner = s.source.owner := by
  induction k generalizing s with
  | zero => simp only [prefetchBytes, Fill.state, Option.some.injEq] at h; subst h; rfl
  | succ k ih =>
    simp only [prefetchBytes] at h
    split at h
    · split at h
      · exact (ih h :)
      · simp only [Fill.state, Option.some.injEq] at h; subst h; rfl
    · simp only [Fill.state, Option.some.injEq] at h; subst h; rfl
    · simp [Fill.state] at h

end Sys2Proof.Machine
end

