-- ==== Sys2Proof/Laws/Commands.lean ====
section
/-! SUPPORT. What each command is once its checks pass, and what the shared ends of commands can answer. -/

namespace Sys2Proof.Machine

/-- The legality check decides the matrix of 60_exceptions R243. -/
theorem legal_iff (i : Instr) (e : Engine) : legal i e = true ↔ LegalIn i e := by
  cases i <;> simp [legal, LegalIn, Engine.isReader]

/-- The width check (41_reader R131, 43_writer R184). -/
theorem validWidth_iff (n : Nat) : validWidth n = true ↔ 1 ≤ n ∧ n ≤ 64 := by
  simp only [validWidth, Bool.and_eq_true, decide_eq_true_eq]; rfl

/-- What a response leaves. -/
theorem respond_eq {st : Status} {v : Data} {s t : State} (h : respond st v s = .next t) : t = s.answered ⟨st, v⟩ := by
  simp only [respond] at h; cases h; rfl

/-- How a validated read goes on after its refill. -/
theorem afterFill_next {f : Fill} {k : State → Result} {t : State} (h : afterFill f k = .next t) :
    (∃ u, f = .done u ∧ k u = .next t) ∨ (∃ u, f = .eos u ∧ t = (u.withEngine u.engine.clear).answered ⟨.endOfStream, 0#64⟩) ∨
    (∃ u, f = .overflow u ∧ t = u.answered ⟨.overflow, 0#64⟩) := by
  cases f with
  | done u => exact .inl ⟨u, rfl, h⟩
  | eos u => exact .inr (.inl ⟨u, rfl, respond_eq h⟩)
  | overflow u => exact .inr (.inr ⟨u, rfl, respond_eq h⟩)
  | never => cases h

/-- How a writer command goes on after its drain. -/
theorem afterDrain_next {f : Drain} {k : State → Result} {t : State} (h : afterDrain f k = .next t) :
    (∃ u, f = .done u ∧ k u = .next t) ∨ (∃ u, f = .refused u ∧ t = u.answered ⟨.sinkFail, 0#64⟩) := by
  cases f with
  | done u => exact .inl ⟨u, rfl, h⟩
  | refused u => exact .inr ⟨u, rfl, respond_eq h⟩
  | undefined u => cases h
  | never => cases h

/-- When `takeField` answers, and what. -/
theorem takeField_next {n : Nat} {s t : State} (h : takeField n s = .next t) :
    n ≤ s.engine.count ∧ t = (s.withEngine (s.engine.dropOldest n)).answered ⟨.ok, s.engine.oldest n⟩ := by
  unfold takeField at h
  rw [Engine.take_eq] at h
  split at h
  · rename_i v e he
    split at he
    · cases he
    · cases he; exact ⟨by omega, respond_eq h⟩
  · cases h

/-- When `lookField` answers, and what. -/
theorem lookField_next {n : Nat} {s t : State} (h : lookField n s = .next t) :
    n ≤ s.engine.count ∧ t = s.answered ⟨.ok, s.engine.oldest n⟩ := by
  unfold lookField Engine.look at h
  split at h
  · rename_i v he
    split at he
    · cases he
    · cases he; exact ⟨by omega, respond_eq h⟩
  · cases h

/-- `takeField` with enough bits. -/
theorem takeField_eq {n : Nat} {s : State} (h : n ≤ s.engine.count) :
    takeField n s = .next ((s.withEngine (s.engine.dropOldest n)).answered ⟨.ok, s.engine.oldest n⟩) := by
  unfold takeField; rw [Engine.take_eq, if_neg (by omega)]; rfl

/-- `lookField` with enough bits. -/
theorem lookField_eq {n : Nat} {s : State} (h : n ≤ s.engine.count) :
    lookField n s = .next (s.answered ⟨.ok, s.engine.oldest n⟩) := by
  unfold lookField Engine.look; rw [if_neg (by omega)]; rfl

/-- READ past its checks. -/
theorem exec_read {n : Nat} {s : State} (h : LegalIn (.read n) s.engine) (h1 : 1 ≤ n) (h2 : n ≤ 64) :
    exec (.read n) s = afterFill (readerFill n s) (takeField n) := by
  have hl := (legal_iff _ _).mpr h
  have hv := (validWidth_iff n).mpr ⟨h1, h2⟩
  simp only [exec, execRead, hl, hv]; rfl

/-- PEEK past its checks. -/
theorem exec_peek {n : Nat} {s : State} (h : LegalIn (.peek n) s.engine) (h1 : 1 ≤ n) (h2 : n ≤ 64) :
    exec (.peek n) s = afterFill (readerFill n s) (lookField n) := by
  have hl := (legal_iff _ _).mpr h
  have hv := (validWidth_iff n).mpr ⟨h1, h2⟩
  simp only [exec, execPeek, hl, hv]; rfl

/-- READU past its checks. -/
theorem exec_readu {n : Nat} {s : State} (h : LegalIn (.readu n) s.engine) (h1 : 1 ≤ n) (h2 : n ≤ 64) :
    exec (.readu n) s = afterUncheckedFill (stdFill n s) (takeField n) := by
  have hl := (legal_iff _ _).mpr h
  have hv := (validWidth_iff n).mpr ⟨h1, h2⟩
  simp only [exec, execReadu, hl, hv]; rfl

/-- WRITE past its checks. -/
theorem exec_write {n : Nat} {d : Data} {s : State} (h : LegalIn (.write n d) s.engine) (h1 : 1 ≤ n) (h2 : n ≤ 64) (h3 : s.engine.count + n ≤ 71) :
    exec (.write n d) s = afterDrain (drainAll (s.withEngine (s.engine.insert (widenData (lowData d n)) n))) (respond .ok 0#64) := by
  have hl := (legal_iff _ _).mpr h
  have hv := (validWidth_iff n).mpr ⟨h1, h2⟩
  have hp : s.engine.put d n = some (s.engine.insert (widenData (lowData d n)) n) := by
    rw [Engine.put_eq, if_neg (by unfold cntMax; omega)]
  simp only [exec, execWrite, hl, hv, hp]; rfl

/-- FLUSH past its check. -/
theorem exec_flush {s : State} (h : LegalIn .flush s.engine) : exec .flush s = afterDrain (flushAll s) (respond .ok 0#64) := by
  have hl := (legal_iff _ _).mpr h
  simp only [exec, execFlush, hl]; rfl

/-- CLOSE past its check. -/
theorem exec_close {s : State} (h : s.engine.cfgValid = true) : exec .close s =
    if s.engine.tier = .writer then afterDrain (flushAll s) endLifetime else endLifetime s := by
  have hl := (legal_iff .close _).mpr h
  simp only [exec, execClose, hl]; rfl

end Sys2Proof.Machine
end

