-- ==== Sys2Proof/Laws/PerInstr.lean ====
section
/-! SUPPORT. Statements made per instruction, about the instruction as syntax: one lemma per constructor. -/

namespace Sys2Proof.Laws.TableRow

/-- The command word of an instruction is selected by its own row of the opcode map, and the width it was given stands in `N`
(30_encoding R71, R85). -/
def Statement (i : Instr) : Prop :=
  rowSelects (rowOf i) (encodeCmd i) = true ∧
    match i with
    | .read n => nOf (encodeCmd i) = BitVec.ofNat 7 n
    | .peek n => nOf (encodeCmd i) = BitVec.ofNat 7 n
    | .readu n => nOf (encodeCmd i) = BitVec.ofNat 7 n
    | .write n _ => nOf (encodeCmd i) = BitVec.ofNat 7 n
    | _ => nOf (encodeCmd i) = 0#7

/-- Every width field is held and masked out by the row's mask, whatever the opcode. -/
theorem width_word (opc : BitVec 4) (x : BitVec 7) :
    packCmd 0#1 0#2 x opc &&& 0xF80F#16 = opc.setWidth 16 ∧ nOf (packCmd 0#1 0#2 x opc) = x := by
  revert opc x; decide +kernel

theorem openCmd (tier : Tier) (endian : Endian) : Statement (.openCmd tier endian) := by
  cases tier <;> cases endian <;> exact ⟨by decide, by decide⟩

theorem read (n : Nat) : Statement (.read n) :=
  ⟨by simp only [rowSelects, rowOf, encodeCmd, (width_word _ _).1]; decide, (width_word _ _).2⟩

theorem peek (n : Nat) : Statement (.peek n) :=
  ⟨by simp only [rowSelects, rowOf, encodeCmd, (width_word _ _).1]; decide, (width_word _ _).2⟩

theorem readu (n : Nat) : Statement (.readu n) :=
  ⟨by simp only [rowSelects, rowOf, encodeCmd, (width_word _ _).1]; decide, (width_word _ _).2⟩

theorem write (n : Nat) (data : Data) : Statement (.write n data) :=
  ⟨by simp only [rowSelects, rowOf, encodeCmd, (width_word _ _).1]; decide, (width_word _ _).2⟩

theorem flush : Statement .flush := ⟨by decide, by decide⟩

theorem avail : Statement .avail := ⟨by decide, by decide⟩

theorem close : Statement .close := ⟨by decide, by decide⟩

theorem discard : Statement .discard := ⟨by decide, by decide⟩

end Sys2Proof.Laws.TableRow
end

