-- ==== Sys2Proof/Tests/Slice0.lean ====
section
/-! SUPPORT. Tests: words and single steps whose expected results are the spec's own (95_test_vectors and the examples of the rules), the
checks of `WellFormed`, and for each statement a state and operands that meet its hypotheses. -/

namespace Sys2Proof.Tests

open Sys2Proof Sys2Proof.Machine

/-! ### Well-formedness: `N` is a 7-bit field (30_encoding R73) -/

theorem test_wf_read_127 : (Instr.read 127).WellFormed := by decide
theorem test_illformed_read_128 : ¬ (Instr.read 128).WellFormed := by decide
theorem test_illformed_peek_128 : ¬ (Instr.peek 128).WellFormed := by decide
theorem test_illformed_readu_128 : ¬ (Instr.readu 128).WellFormed := by decide
theorem test_illformed_write_128 : ¬ (Instr.write 128 0#64).WellFormed := by decide

/-! ### Decoding: words written out bit by bit, RSV END TIER N OPC (30_encoding R71, R85; 95 section 2) -/

theorem test_decode_open_bulk_le : decode 0b0010100000000001#16 0#64 = .instr (.openCmd .bulk .le) := by decide
theorem test_decode_open_fast_be : decode 0b0001000000000001#16 0#64 = .instr (.openCmd .fast .be) := by decide
theorem test_decode_read_12 : decode 0b0000000011000010#16 0#64 = .instr (.read 12) := by decide
theorem test_decode_peek_64 : decode 0b0000010000000011#16 0#64 = .instr (.peek 64) := by decide
theorem test_decode_readu_4 : decode 0b0000000001000100#16 7#64 = .instr (.readu 4) := by decide
theorem test_decode_write_1 : decode 0b0000000000010101#16 1#64 = .instr (.write 1 1#64) := by decide
theorem test_decode_flush : decode 0b0000000000000110#16 0#64 = .instr .flush := by decide
theorem test_decode_avail : decode 0b0000000000000111#16 0#64 = .instr .avail := by decide
theorem test_decode_close : decode 0b0000000000001000#16 0#64 = .instr .close := by decide
theorem test_decode_discard : decode 0b0000000000001001#16 0#64 = .instr .discard := by decide
theorem test_illegal_open_with_n : decode 0x0011#16 0#64 = .illegal .unusedField := by decide
theorem test_illegal_flush_with_end : decode 0x2006#16 0#64 = .illegal .unusedField := by decide
theorem test_illegal_opcode_f : decode 0x000F#16 0#64 = .illegal .reservedOpcode := by decide
theorem test_illegal_rsv : decode 0xC007#16 0#64 = .illegal .reservedBits := by decide
theorem test_table_word : decodeTableWord 16 0x3801 = some (.openCmd .writer .le) := by decide
theorem test_encode_write : encode (.write 64 5#64) = (0x0405#16, 5#64) := by decide

/-! ### Small states -/

/-- A configured reader over a finite source; the prefetch draw is `draw`, with BULK_MAX_EXTRA = 7. -/
def reader (tier : Tier) (endian : Endian) (reg : RegWord) (cnt : CntWord) (bytes : List Byte) (draw : Nat := 0) : State where
  engine := { cfgValid := true, tier := tier, endian := endian, reg := reg, cnt := cnt, ub := false }
  source := { owner := 0, script := bytes.map .byte, deterministic := true, pulls := 0, delivered := [] }
  sink := { owner := 0, script := [], deterministic := true, offers := 0, bytes := [] }
  host := { program := [], index := 0, responses := [] }
  prefetch := { owner := 0, maxExtra := 7, script := [draw], draws := 0 }

/-- A configured writer whose sink gives the answers listed and then accepts. -/
def writer (endian : Endian) (reg : RegWord) (cnt : CntWord) (answers : List SinkAnswer) : State :=
  { reader .writer endian reg cnt [] with sink := { owner := 0, script := answers, deterministic := true, offers := 0, bytes := [] } }

/-- An unconfigured instance. -/
def idle : State := { reader .std .be 0#72 0#7 [] with engine := Engine.reset }

/-- A state whose host's next move is the command word, with no data. -/
def issuing (s : State) (cmd : CmdWord) : State :=
  { s with host := { program := [.command cmd 0#64], index := 0, responses := [] } }

/-- The responses after a command, REG and CNT. -/
def seen (r : Result) : Option (List Response × RegWord × Nat) :=
  match r with
  | .next t => some (t.host.responses, t.engine.reg, t.engine.count)
  | _ => none

/-- The bytes the sink holds after a command. -/
def sent (r : Result) : Option (List Byte) :=
  match r with
  | .next t => some t.sink.bytes
  | _ => none

/-- The command ends in `fault UNDEFINED` with UB = 1. -/
def undefinedFault (r : Result) : Bool :=
  match r with
  | .fault (.undefined t) => t.engine.ub
  | _ => false

/-! ### Single steps (95 sections 4 to 8) -/

theorem test_read_be : seen (exec (.read 4) (reader .std .be 0#72 0#7 [0xB0#8])) = some ([⟨.ok, 0xB#64⟩], 0#72, 4) := by decide
theorem test_read_le : seen (exec (.read 4) (reader .std .le 0#72 0#7 [0xB0#8])) = some ([⟨.ok, 0#64⟩], 0xB#72, 4) := by decide
theorem test_read_nine_bytes :
    seen (exec (.read 64) (reader .std .le 0#72 7#7 [0xEF#8, 0xCD#8, 0xAB#8, 0x89#8, 0x67#8, 0x45#8, 0x23#8, 0x01#8])) =
      some ([⟨.ok, 0x91A2B3C4D5E6F780#64⟩], 0#72, 7) := by decide
theorem test_read_end_of_stream :
    seen (exec (.read 12) (reader .std .be 2#72 4#7 [])) = some ([⟨.endOfStream, 0#64⟩], 0#72, 0) := by decide
theorem test_read_bulk_prefetch :
    seen (exec (.read 4) (reader .bulk .be 0#72 0#7 [0xB0#8, 0x5C#8] 1)) = some ([⟨.ok, 0xB#64⟩], 0x05C#72, 12) := by decide
theorem test_read_bulk_silent_eos :
    seen (exec (.read 8) (reader .bulk .be 0#72 0#7 [0xAB#8] 7)) = some ([⟨.ok, 0xAB#64⟩], 0#72, 0) := by decide
theorem test_peek : seen (exec (.peek 5) (reader .std .be 1#72 3#7 [0xF0#8])) = some ([⟨.ok, 7#64⟩], 0x1F0#72, 11) := by decide
theorem test_peek_le : seen (exec (.peek 5) (reader .std .le 7#72 3#7 [0x60#8])) = some ([⟨.ok, 7#64⟩], 0x307#72, 11) := by decide
theorem test_readu : seen (exec (.readu 12) (reader .fast .be 0#72 0#7 [0xB0#8, 0x5C#8])) = some ([⟨.ok, 0xB05#64⟩], 0xC#72, 4) := by
  decide
theorem test_readu_undefined : undefinedFault (exec (.readu 0) (reader .fast .be 0#72 0#7 [])) = true := by decide
theorem test_write_be :
    sent (exec (.write 64 0x0123456789ABCDEF#64) (writer .be 0#72 0#7 [])) =
      some [0x01#8, 0x23#8, 0x45#8, 0x67#8, 0x89#8, 0xAB#8, 0xCD#8, 0xEF#8] := by decide
theorem test_write_refused :
    seen (exec (.write 64 0x0123456789ABCDEF#64) (writer .le 5#72 3#7 [.accept, .accept, .refuse])) =
      some ([⟨.sinkFail, 0#64⟩], 0x91A2B3C4D5E#72, 51) := by decide
theorem test_write_width_before_capacity :
    seen (exec (.write 65 0#64) (writer .be 0#72 71#7 [])) = some ([⟨.invalidWidth, 0#64⟩], 0#72, 71) := by decide
theorem test_flush_be : sent (exec .flush (writer .be 0x78#72 7#7 [])) = some [0xF0#8] := by decide
theorem test_flush_le : sent (exec .flush (writer .le 0x60#72 7#7 [])) = some [0x60#8] := by decide
theorem test_avail : seen (exec .avail (reader .std .be 0#72 4#7 [])) = some ([⟨.ok, 4#64⟩], 0#72, 4) := by decide
theorem test_open : seen (exec (.openCmd .writer .le) idle) = some ([⟨.ok, 0#64⟩], 0#72, 0) := by decide
theorem test_open_configured :
    seen (exec (.openCmd .std .be) (writer .le 3#72 2#7 [])) = some ([⟨.illegalCommand, 0#64⟩], 3#72, 2) := by decide
theorem test_close_writer : sent (exec .close (writer .be 0b10101#72 5#7 [])) = some [0xA8#8] := by decide
theorem test_close_refused :
    seen (exec .close (writer .be 0b10101#72 5#7 [.refuse])) = some ([⟨.sinkFail, 0#64⟩], 0b10101#72, 5) := by decide
theorem test_discard : sent (exec .discard (writer .be 0b10101#72 5#7 [])) = some [] := by decide
theorem test_step_zero_word : seen (step (issuing idle 0x0000#16)) = some ([⟨.illegalCommand, 0#64⟩], 0#72, 0) := by decide
theorem test_first_step_from_reset :
    seen (step (State.reset.withFetchWord 16 0x3801)) = some ([⟨.ok, 0#64⟩], 0#72, 0) := by decide

/-! ### Witnesses: for each statement with hypotheses, what meets them -/

theorem witness_after_reset : idle.engine = Engine.reset := by decide
theorem witness_host_reset :
    (let s := { idle with host := { program := [.reset], index := 0, responses := [] } }
     s.engine.ub = false ∧ s.nextMove = some .reset) := by decide
theorem witness_step_runs_decoded :
    (let s := issuing idle 0x0001#16
     s.engine.ub = false ∧ s.host.program[s.host.index]? = some (.command 0x0001#16 0#64) ∧
       decode 0x0001#16 0#64 = .instr (.openCmd .std .be)) := by decide
theorem witness_step_waits : idle.engine.ub = false ∧ idle.host.program[idle.host.index]? = none := by decide
theorem witness_faulted_run : ({ idle with engine := { Engine.reset with ub := true } } : State).engine.ub = true := by decide
/-- The next move of a faulted run is a reset, and there is still no next state (log 23). -/
theorem witness_faulted_run_before_reset :
    (let s := { idle with engine := { Engine.reset with ub := true }, host := { program := [.reset], index := 0, responses := [] } }
     s.engine.ub = true ∧ s.nextMove = some .reset ∧ seen (step s) = none) := by decide

theorem witness_malformed_reserved_bits : (issuing idle 0x4002#16).nextMove = some (.command 0x4002#16 0#64) ∧
    (0x4002#16).extractLsb' 14 2 ≠ 0#2 := by decide
theorem witness_malformed_opcode_0_and_a : (0x0000#16).extractLsb' 0 4 = 0x0#4 ∧ (0x000A#16).extractLsb' 0 4 ≥ 0xA#4 := by decide
theorem witness_malformed_open : (0x0011#16).extractLsb' 0 4 = 0x1#4 ∧ (0x0011#16).extractLsb' 4 7 ≠ 0#7 := by decide
theorem witness_malformed_read : (0x0802#16).extractLsb' 0 4 = 0x2#4 ∧ (0x0802#16).extractLsb' 11 2 ≠ 0#2 := by decide
theorem witness_malformed_discard : (0x0019#16).extractLsb' 0 4 = 0x9#4 ∧ (0x0019#16).extractLsb' 4 7 ≠ 0#7 := by decide
theorem witness_map_command_and_illegal :
    decode 0x0402#16 0#64 = .instr (.read 64) ∧ decode 0x000A#16 0#64 = .illegal .reservedOpcode := by decide
theorem witness_placed_command : idle.engine.ub = false ∧ decodeTableWord 16 0x0042 = some (.read 4) := by decide
theorem witness_only_write_data :
    (∀ k, k < 4 → (0xFA#64).getLsbD k = (0x0A#64).getLsbD k) ∧ (0x0002#16).extractLsb' 0 4 ≠ 0x5#4 := by decide

theorem witness_legality_read : ¬ LegalIn (.read 4) (writer .be 0#72 0#7 []).engine ∧
    LegalIn (.read 4) (reader .bulk .be 0#72 0#7 []).engine := by decide
theorem witness_legality_next : ∃ t, exec .avail (reader .std .be 0#72 0#7 []) = .next t := ⟨_, rfl⟩
theorem witness_configured_and_not : idle.engine.cfgValid = false ∧ (reader .fast .le 0#72 71#7 []).engine.cfgValid = true := by decide
theorem witness_close_reader : (reader .fast .le 1#72 1#7 []).engine.cfgValid = true ∧
    (reader .fast .le 1#72 1#7 []).engine.tier ≠ .writer := by decide
theorem witness_invalid_width : (65 = 0 ∨ 64 < 65) ∧ (0 = 0 ∨ 64 < 0) ∧ LegalIn (.read 65) (reader .std .be 0#72 71#7 []).engine ∧
    LegalIn (.peek 0) (reader .bulk .be 0#72 0#7 []).engine ∧ LegalIn (.write 65 0#64) (writer .be 0#72 71#7 []).engine := by decide

theorem witness_fifo_refill : (reader .std .be 0x5#72 63#7 []).engine.AccOk ∧
    ∃ f, (reader .std .be 0x5#72 63#7 []).engine.refill 0xFF#8 = some f := ⟨by decide, _, rfl⟩
theorem witness_fifo_take : (reader .std .le 0x5#72 71#7 []).engine.AccOk ∧
    ∃ v f, (reader .std .le 0x5#72 71#7 []).engine.take 64 = some (v, f) := ⟨by decide, _, _, rfl⟩
theorem witness_fifo_look : (reader .std .be 1#72 1#7 []).engine.AccOk ∧
    ∃ v, (reader .std .be 1#72 1#7 []).engine.look 1 = some v := ⟨by decide, _, rfl⟩
theorem witness_fifo_put : (writer .be 0x7F#72 7#7 []).engine.AccOk ∧
    ∃ f, (writer .be 0x7F#72 7#7 []).engine.put 0#64 64 = some f := ⟨by decide, _, rfl⟩
theorem witness_fifo_drain : (writer .le 0xAB#72 8#7 []).engine.AccOk ∧
    ∃ b f, (writer .le 0xAB#72 8#7 []).engine.drainByte = some (b, f) := ⟨by decide, _, _, rfl⟩
theorem witness_fifo_pad : (writer .be 0x7F#72 7#7 []).engine.AccOk ∧
    ∃ b, (writer .be 0x7F#72 7#7 []).engine.padByte = some b := ⟨by decide, _, rfl⟩

theorem witness_std_read_one_byte :
    (let s := reader .std .be 0#72 0#7 [0xB0#8]
     s.engine.Is .std ∧ s.engine.AccOk ∧ s.source.answers (s.engine.need 1) = [0xB0#8].map .byte) := by decide
theorem witness_std_read_widest :
    (let s := reader .std .le 0x5#72 63#7 [0xB0#8]
     s.engine.Is .std ∧ s.engine.AccOk ∧ s.source.answers (s.engine.need 64) = [0xB0#8].map .byte) := by decide
theorem witness_bulk_prefetch :
    (let s := reader .bulk .be 0#72 0#7 [0xB0#8, 0x5C#8, 0x3A#8] 2
     s.engine.Is .bulk ∧ s.engine.AccOk ∧ s.engine.count < 4 ∧ 1 = s.engine.need 4 ∧ s.source.answers 1 = [0xB0#8].map .byte ∧
       2 = min s.prefetch.wish (min s.prefetch.maxExtra ((71 - (s.engine.count + 8 * 1)) / 8)) ∧
       (∀ a ∈ (s.source.after 1).answers 2, a ≠ .never) ∧
       [0x5C#8, 0x3A#8] = leadingBytes ((s.source.after 1).answers 2) ∧ 2 = min 2 ([0x5C#8, 0x3A#8].length + 1)) := by decide
theorem witness_bulk_prefetch_eos :
    (let s := reader .bulk .be 0#72 0#7 [0xB0#8, 0x5C#8] 3
     s.engine.Is .bulk ∧ s.engine.AccOk ∧ s.engine.count < 4 ∧ 1 = s.engine.need 4 ∧ s.source.answers 1 = [0xB0#8].map .byte ∧
       3 = min s.prefetch.wish (min s.prefetch.maxExtra ((71 - (s.engine.count + 8 * 1)) / 8)) ∧
       (∀ a ∈ (s.source.after 1).answers 3, a ≠ .never) ∧
       [0x5C#8] = leadingBytes ((s.source.after 1).answers 3) ∧ 2 = min 3 ([0x5C#8].length + 1)) := by decide
theorem test_bulk_stops_at_eos :
    (match exec (.read 4) (reader .bulk .be 0#72 0#7 [0xB0#8, 0x5C#8] 3) with
     | .next t => t.source.pulls
     | _ => 0) = 3 := by decide
theorem witness_unanswered_optional_pull :
    (let s := { reader .bulk .be 0#72 0#7 [] 2 with
       source := { owner := 0, script := [.byte 1#8, .byte 2#8, .never], deterministic := true, pulls := 0, delivered := [] } }
     s.engine.Is .bulk ∧ s.engine.count < 8 ∧ 1 = s.engine.need 8 ∧ s.source.answers 1 = [1#8].map .byte ∧
       2 = min s.prefetch.wish (min s.prefetch.maxExtra ((71 - (s.engine.count + 8 * 1)) / 8)) ∧
       (s.source.after 1).answers 2 = [2#8].map .byte ++ .never :: []) := by decide
theorem witness_bulk_without_refill :
    (let s := reader .bulk .be 0xB#72 4#7 [] 2
     s.engine.Is .bulk ∧ s.engine.AccOk ∧ 4 ≤ s.engine.count) := by decide
theorem witness_end_of_stream :
    (let s := reader .bulk .be 0x2#72 4#7 [0x12#8]
     s.engine.Is .bulk ∧ s.source.answers (s.engine.need 20) = [0x12#8].map .byte ++ .eos :: []) := by decide
theorem witness_unanswered_pull :
    (let s := { reader .fast .be 0#72 0#7 [] with source := { owner := 0, script := [.byte 1#8, .never], deterministic := true, pulls := 0, delivered := [] } }
     s.engine.cfgValid = true ∧ s.engine.tier = .fast ∧ s.source.answers (s.engine.need 16) = [1#8].map .byte ++ .never :: []) := by decide
theorem witness_unanswered_pull_reader :
    (let s := { reader .std .be 0#72 0#7 [] with source := { owner := 0, script := [.never], deterministic := true, pulls := 0, delivered := [] } }
     s.engine.cfgValid = true ∧ s.engine.tier = .std ∧ s.source.answers (s.engine.need 1) = [].map .byte ++ .never :: []) := by decide
theorem witness_readu :
    (let s := reader .fast .le 0#72 0#7 [0xB0#8, 0x5C#8]
     s.engine.Is .fast ∧ s.engine.AccOk ∧ s.source.answers (s.engine.need 12) = [0xB0#8, 0x5C#8].map .byte) := by decide
theorem witness_fast_run :
    (reader .fast .be 0#72 0#7 [0xB0#8]).engine.Is .fast ∧
      ∃ t, runAll ([4, 4].map Instr.readu) (reader .fast .be 0#72 0#7 [0xB0#8]) = .next t := ⟨by decide, _, rfl⟩
theorem witness_broken_readu_width : (reader .fast .be 0#72 0#7 []).engine.Is .fast ∧ (65 = 0 ∨ 64 < 65) := by decide
theorem witness_broken_readu_stream :
    (let s := reader .fast .be 0#72 0#7 []
     s.engine.Is .fast ∧ s.source.answers (s.engine.need 1) = [].map .byte ++ .eos :: []) := by decide
theorem witness_peek_twice :
    ∃ t, exec (.peek 5) (reader .std .be 1#72 3#7 [0xF0#8]) = .next t ∧ t.host.responses = [] ++ [⟨.ok, 7#64⟩] ∧
      (reader .std .be 1#72 3#7 [0xF0#8]).engine.AccOk := ⟨_, rfl, by decide, by decide⟩
theorem witness_read_after_peek :
    ∃ t, exec (.peek 5) (reader .std .be 1#72 3#7 [0xF0#8]) = .next t ∧ t.host.responses = [] ++ [⟨.ok, 7#64⟩] ∧
      (reader .std .be 1#72 3#7 [0xF0#8]).engine.AccOk ∧ 1 ≤ 3 ∧ 3 ≤ 5 := ⟨_, rfl, by decide, by decide, by decide, by decide⟩
theorem witness_look_ahead_pull :
    ∃ t, exec (.read 4) (reader .std .be 0#72 0#7 [0xB0#8]) = .next t ∧ t.host.responses = [] ++ [⟨.ok, 0xB#64⟩] ∧
      ¬ 4 ≤ (reader .std .be 0#72 0#7 [0xB0#8]).engine.count := ⟨_, rfl, by decide, by decide⟩
theorem witness_look_ahead_no_pull :
    ∃ t, exec (.read 4) (reader .std .be 0xB#72 4#7 []) = .next t ∧ t.host.responses = [] ++ [⟨.ok, 0xB#64⟩] ∧
      4 ≤ (reader .std .be 0xB#72 4#7 []).engine.count := ⟨_, rfl, by decide, by decide⟩
theorem witness_bulk_ahead :
    BulkAhead (reader .std .be 0#72 4#7 [0x5C#8, 0x3A#8]) (reader .bulk .be 0x05C#72 12#7 [0x3A#8]) [0x5C#8] [0x3A#8] := by decide

theorem witness_write_accepted :
    (let s := writer .be 0x55#72 7#7 []
     s.engine.Is .writer ∧ s.engine.AccOk ∧ s.engine.count + 64 ≤ 71 ∧ 8 = (s.engine.count + 64) / 8 ∧
       s.sink.answers 8 = List.replicate 8 .accept) := by decide
theorem witness_write_refused :
    (let s := writer .le 5#72 3#7 [.accept, .accept, .refuse]
     s.engine.Is .writer ∧ s.engine.AccOk ∧ s.engine.count + 64 ≤ 71 ∧
       s.sink.answers ((s.engine.count + 64) / 8) = List.replicate 2 .accept ++ .refuse :: List.replicate 5 .accept) := by decide
theorem witness_write_overflow :
    (let s := writer .be 0#72 71#7 []
     s.engine.Is .writer ∧ 71 < s.engine.count + 1) := by decide
theorem witness_write_ok :
    ∃ t, exec (.write 7 0x7F#64) (writer .be 0#72 0#7 []) = .next t ∧ t.host.responses = [] ++ [⟨.ok, 0#64⟩] := ⟨_, rfl, by decide⟩
theorem witness_flush_accepted :
    (let s := writer .be 0x1FF#72 9#7 []
     s.engine.Is .writer ∧ s.engine.AccOk ∧ 2 = (s.engine.count + 7) / 8 ∧ s.sink.answers 2 = List.replicate 2 .accept) := by decide
theorem witness_flush_refused :
    (let s := writer .be 0x1FF#72 9#7 [.accept, .refuse]
     s.engine.Is .writer ∧ s.engine.AccOk ∧
       s.sink.answers ((s.engine.count + 7) / 8) = List.replicate 1 .accept ++ .refuse :: []) := by decide
theorem witness_unanswered_offer :
    (let s := writer .be 0x7F#72 7#7 [.never]
     s.engine.Is .writer ∧ s.engine.AccOk ∧ s.engine.count + 1 ≤ 71 ∧
       s.sink.answers ((s.engine.count + 1) / 8) = List.replicate 0 .accept ++ .never :: [] ∧
       s.sink.answers ((s.engine.count + 7) / 8) = List.replicate 0 .accept ++ .never :: []) := by decide
theorem witness_flush_ok :
    ∃ t, exec .flush (writer .be 1#72 1#7 []) = .next t ∧ t.host.responses = [] ++ [⟨.ok, 0#64⟩] := ⟨_, rfl, by decide⟩
theorem witness_writer_stream :
    widthsOk [(5, 0x15#64), (4, 0xFF#64)] ∧
      ∃ t, runAll (writeProgram [(5, 0x15#64), (4, 0xFF#64)]) (writer .be 0#72 0#7 []) = .next t ∧
        t.host.responses = [] ++ List.replicate 3 ⟨.ok, 0#64⟩ ∧ t.sink.bytes = [] ++ [0xAF#8, 0x80#8] :=
  ⟨by decide, _, rfl, by decide, by decide⟩
theorem witness_round_trip_reader :
    (let r := reader .bulk .be 0#72 0#7 [0xAF#8, 0x80#8] 7
     r.engine.cfgValid = true ∧ r.engine.tier ≠ .writer ∧ r.engine.endian = .be ∧ r.engine.reg = 0#72 ∧ r.engine.cnt = 0#7 ∧
       r.source.script = [0xAF#8, 0x80#8].map .byte ∧ r.source.deterministic = true) := by decide

theorem witness_invariant_step :
    (issuing idle 0x3801#16).Inv ∧ ∃ t, step (issuing idle 0x3801#16) = .next t := ⟨by decide, _, rfl⟩
theorem witness_lifetime_begins : ∃ t, exec (.openCmd .bulk .le) idle = .next t ∧ idle.engine.cfgValid = false ∧ t.engine.cfgValid = true :=
  ⟨_, rfl, by decide, by decide⟩
theorem witness_lifetime_goes_on : ∃ t, exec .flush (writer .le 1#72 1#7 []) = .next t ∧ t.engine.cfgValid = true := ⟨_, rfl, by decide⟩
theorem witness_lifetime_ends : ∃ t, exec .discard (writer .le 1#72 1#7 []) = .next t ∧ t.engine.cfgValid = false := ⟨_, rfl, by decide⟩
theorem witness_status_invalid_width :
    ∃ t, exec (.peek 65) (reader .std .be 0#72 0#7 []) = .next t ∧ t.host.responses = [] ++ [⟨.invalidWidth, 0#64⟩] := ⟨_, rfl, by decide⟩
theorem witness_status_end_of_stream :
    ∃ t, exec (.read 1) (reader .std .be 0#72 0#7 []) = .next t ∧ t.host.responses = [] ++ [⟨.endOfStream, 0#64⟩] := ⟨_, rfl, by decide⟩
theorem witness_status_overflow :
    ∃ t, exec (.write 8 0#64) (writer .be 0#72 64#7 []) = .next t ∧ t.host.responses = [] ++ [⟨.overflow, 0#64⟩] := ⟨_, rfl, by decide⟩
theorem witness_status_sink_fail :
    ∃ t, exec .close (writer .be 1#72 1#7 [.refuse]) = .next t ∧ t.host.responses = [] ++ [⟨.sinkFail, 0#64⟩] := ⟨_, rfl, by decide⟩
theorem witness_status_illegal :
    ∃ t, exec .avail idle = .next t ∧ t.host.responses = [] ++ [⟨.illegalCommand, 0#64⟩] := ⟨_, rfl, by decide⟩
theorem witness_one_port_writer :
    ∃ t, exec (.write 8 0xAB#64) (writer .be 0#72 0#7 []) = .next t ∧ (writer .be 0#72 0#7 []).engine.tier = .writer ∧
      t.sink.bytes = [0xAB#8] := ⟨_, rfl, by decide, by decide⟩
theorem witness_one_port_reader :
    ∃ t, exec (.read 8) (reader .std .be 0#72 0#7 [0xAB#8]) = .next t ∧ t.source.delivered = [0xAB#8] := ⟨_, rfl, by decide⟩
theorem witness_transactions :
    ∃ t, exec .flush (writer .be 1#72 71#7 []) = .next t ∧ (writer .be 1#72 71#7 []).engine.AccOk ∧ t.sink.offers = 9 :=
  ⟨_, rfl, by decide, by decide⟩
theorem witness_undefined :
    ∃ t, exec (.readu 1) (reader .fast .be 0#72 0#7 []) = .fault (.undefined t) := ⟨_, rfl⟩
theorem witness_answered :
    (let s := writer .be 0#72 71#7 [.refuse]
     s.engine.AccOk ∧ (∀ a ∈ s.source.answers 9, a ≠ .never) ∧ (∀ a ∈ s.sink.answers 9, a ≠ .never)) := by decide
theorem witness_answered_readu :
    (let s := reader .fast .be 0#72 0#7 [0xB0#8]
     s.engine.AccOk ∧ (∀ a ∈ s.source.answers 9, a ≠ .never) ∧ (∀ a ∈ s.sink.answers 9, a ≠ .never) ∧
       s.source.answers (s.engine.need 4) = [.byte 0xB0#8]) := by decide
theorem witness_instance_faults :
    ∃ r, Platform.stepAt 0 [{ idle with engine := { Engine.reset with ub := true } }, idle] = some (.fault (0, r)) := ⟨_, rfl⟩
theorem witness_platform_reset : ∃ s, Platform.reset[0]? = some s :=
  ⟨State.resetOf 0, by simp [Platform.reset, Config.instances]⟩
theorem witness_instances : ∃ q, Platform.stepAt 1 [idle, issuing idle 0x0001#16] = some (.next q) := ⟨_, rfl⟩

end Sys2Proof.Tests
end

section
/-! PROOFS. A platform right after reset: how many instances it has, and which state each number holds (00_scope R7, 60_exceptions R255). -/

namespace Sys2Proof

@[simp] theorem Config.instances_pos : 0 < Config.instances := Nat.succ_pos Config.instancesLessOne

namespace Machine

@[simp] theorem Platform.reset_length : Platform.reset.length = Config.instances := by simp [Platform.reset]

/-- A reset platform holds at number `k` the reset state of that number, and nothing past its last instance. -/
theorem Platform.reset_getElem?_eq_some_iff {k : Nat} {s : State} :
    Platform.reset[k]? = some s ↔ k < Config.instances ∧ State.resetOf k = s := by
  simp [Platform.reset, List.getElem?_eq_some_iff]

/-! With nothing settled at reset (log 10), the next answer of each agent is draw number 0 of its own instance (log 21). -/
@[simp] theorem State.resetOf_source_answer (k : Nat) : (State.resetOf k).source.answer = Config.sourceDraw k 0 := rfl
@[simp] theorem State.resetOf_sink_answer (k : Nat) : (State.resetOf k).sink.answer = Config.sinkDraw k 0 := rfl
@[simp] theorem State.resetOf_prefetch_wish (k : Nat) : (State.resetOf k).prefetch.wish = Config.prefetchDraw k 0 := rfl

/-- Settles O57: the instance at number `k` of a reset platform is `State.resetOf k`, whose agents are all owned by `k`. -/
theorem platformResetSeparatesInstances : Obligations.PlatformResetSeparatesInstances := by
  refine ⟨Platform.reset_length, Config.instances_pos, fun k s hk => ?_⟩
  obtain ⟨-, rfl⟩ := Platform.reset_getElem?_eq_some_iff.mp hk
  exact ⟨rfl, rfl, rfl, rfl, State.resetOf_source_answer k, State.resetOf_sink_answer k, State.resetOf_prefetch_wish k, rfl⟩

end Machine

end Sys2Proof
end

section
/-! PROOFS. The host's moves (10_state R21, R28): what a step is for each move, which move `withFetchWord` places, and a command refused
by the legality matrix (60_exceptions R243). -/

namespace Sys2Proof.Machine

variable {s : State} {cmd : CmdWord} {data : Data} {i : Instr}

/-- A state with `UB = 1` has no step (R28, log 5). -/
theorem step_of_ub (hu : s.engine.ub = true) : step s = .fault (.undefined s) := if_pos hu

theorem step_of_nextMove_none (hu : s.engine.ub = false) (hm : s.nextMove = none) : step s = .next s := by
  simp [step, hostMove, hu, hm]

theorem step_of_nextMove_reset (hu : s.engine.ub = false) (hm : s.nextMove = some .reset) : step s = .next s.moved.resetEngine := by
  simp [step, hostMove, hu, hm]

theorem step_of_nextMove_command (hu : s.engine.ub = false) (hm : s.nextMove = some (.command cmd data)) :
    step s = issue cmd data s.moved := by
  simp [step, hostMove, hu, hm]

theorem issue_of_decode_instr (hd : decode cmd data = .instr i) : issue cmd data s = exec i s := by
  simp [issue, hd]

theorem issue_of_decode_illegal {why : Illegal} (hd : decode cmd data = .illegal why) : issue cmd data s = raise .illegalCommand s := by
  simp [issue, hd]

/-- A move that decodes to `i` runs `i` from the state whose host index is past it. -/
theorem step_runs_decoded (hu : s.engine.ub = false) (hm : s.nextMove = some (.command cmd data)) (hd : decode cmd data = .instr i) :
    step s = exec i s.moved := by
  rw [step_of_nextMove_command hu hm, issue_of_decode_instr hd]

/-- A command that the legality matrix refuses answers ILLEGAL_COMMAND and does nothing else (R244). -/
theorem exec_illegal (h : ¬ LegalIn i s.engine) : exec i s = .next (s.answered ⟨.illegalCommand, 0#64⟩) := by
  have hl : (!legal i s.engine) = true := by simpa [← legal_iff] using h
  cases i <;> exact if_pos hl

/-! ### The placed command (log 8, log 13) -/

/-- Wherever the host's index stands, the move set at it is the one found there. -/
theorem setMove_getElem? (m : HostMove) (k : Nat) (program : List HostMove) : (setMove m k program)[k]? = some m := by
  induction k generalizing program with
  | zero => cases program <;> rfl
  | succ k ih => cases program <;> exact ih _

theorem withFetchWord_nextMove (s : State) (nbits w : Nat) :
    (s.withFetchWord nbits w).nextMove =
      some (.command (BitVec.ofNat 16 (w % 2 ^ nbits)) (BitVec.ofNat 64 ((w % 2 ^ nbits) >>> 16))) :=
  setMove_getElem? _ _ _

theorem decodeTableWord_eq_some_iff {nbits w : Nat} :
    decodeTableWord nbits w = some i ↔
      decode (BitVec.ofNat 16 (w % 2 ^ nbits)) (BitVec.ofNat 64 ((w % 2 ^ nbits) >>> 16)) = .instr i := by
  simp only [decodeTableWord]
  split <;> simp [*]

/-! ### The statements -/

/-- Settles O7: the faulted state itself is the one the fault carries. -/
theorem faultedRunHasNoStep : Obligations.FaultedRunHasNoStep :=
  fun s hu => ⟨s, hu, step_of_ub hu⟩

/-- Settles O5: the state with the host index moved past the command is `State.moved`. -/
theorem stepRunsDecodedInstruction : Obligations.StepRunsDecodedInstruction :=
  fun _ _ _ _ hu hm hd => step_runs_decoded hu hm hd

/-- Settles O13: `withFetchWord` puts at the host's index the command pair that `decodeTableWord` decodes. -/
theorem placedCommandRunsNext : Obligations.PlacedCommandRunsNext :=
  fun s nbits w _ hu hd => step_runs_decoded hu (withFetchWord_nextMove s nbits w) (decodeTableWord_eq_some_iff.mp hd)

end Sys2Proof.Machine
end

section
/-! PROOFS. What a command can do to the engine (10_state R24 to R26): leave it alone, work on its accumulator within the lifetime, begin a
lifetime or end one. -/

namespace Sys2Proof.Machine

/-! ### Work within a lifetime -/

/-- The configuration and `UB` stay, and a legal accumulator stays legal. -/
structure Engine.Keeps (e f : Engine) : Prop where
  config : e.SameConfig f
  accOk : e.AccOk → f.AccOk

theorem Engine.Keeps.refl (e : Engine) : e.Keeps e := ⟨.refl e, id⟩

theorem Engine.Keeps.trans {e f g : Engine} (h : e.Keeps f) (k : f.Keeps g) : e.Keeps g :=
  ⟨h.config.trans k.config, k.accOk ∘ h.accOk⟩

theorem Engine.clear_keeps (e : Engine) : e.Keeps e.clear := ⟨⟨rfl, rfl, rfl, rfl⟩, fun _ => e.clear_accOk⟩

theorem Engine.dropOldest_keeps (e : Engine) (n : Nat) : e.Keeps (e.dropOldest n) :=
  ⟨e.dropOldest_sameConfig n, Engine.dropOldest_accOk n⟩

theorem Engine.put_keeps {e f : Engine} {v : Data} {n : Nat} (h : e.put v n = some f) : e.Keeps f := by
  refine ⟨?_, fun ha => ?_⟩
  · rw [Engine.put_eq] at h
    split at h
    · cases h
    · cases h; exact e.insert_sameConfig _ n
  · obtain ⟨-, -, hok, -⟩ := Engine.put_spec ha h
    exact hok

variable {s t : State} {n : Nat}

theorem stdFill_keeps (h : (stdFill n s).state = some t) : s.engine.Keeps t.engine := by
  obtain ⟨-, -, -, hc⟩ := fillBytes_frame h
  exact ⟨hc, fillBytes_accOk h⟩

theorem readerFill_keeps (h : (readerFill n s).state = some t) : s.engine.Keeps t.engine := by
  obtain ⟨-, -, -, -, hc⟩ := readerFill_frame h
  exact ⟨hc, readerFill_accOk h⟩

theorem drainAll_keeps (h : (drainAll s).state = some t) : s.engine.Keeps t.engine := by
  obtain ⟨-, -, -, hc⟩ := drainBytes_frame h
  exact ⟨hc, drainBytes_accOk h⟩

theorem flushAll_keeps (h : (flushAll s).state = some t) : s.engine.Keeps t.engine := by
  obtain ⟨-, -, -, hc, ha⟩ := flushAll_frame h
  exact ⟨hc, ha⟩

/-! ### How commands end -/

/-- How READU goes on after its mandatory pulls. -/
theorem afterUncheckedFill_next {f : Fill} {k : State → Result} (h : afterUncheckedFill f k = .next t) :
    (∃ u, f = .done u ∧ k u = .next t) ∨ (∃ u, f = .overflow u ∧ t = u.answered ⟨.overflow, 0#64⟩) := by
  cases f with
  | done u => exact .inl ⟨u, rfl, h⟩
  | eos u => cases h
  | overflow u => exact .inr ⟨u, rfl, respond_eq h⟩
  | never => cases h

theorem respond_engine {st : Status} {v : Data} (h : respond st v s = .next t) : t.engine = s.engine := by
  rw [respond_eq h]; rfl

theorem respond_keeps {st : Status} {v : Data} (h : respond st v s = .next t) : s.engine.Keeps t.engine := by
  rw [respond_engine h]; exact .refl _

theorem endLifetime_engine (h : endLifetime s = .next t) : t.engine = s.engine.unconfigure := respond_engine h

theorem takeField_keeps (h : takeField n s = .next t) : s.engine.Keeps t.engine := by
  obtain ⟨-, rfl⟩ := takeField_next h
  exact s.engine.dropOldest_keeps n

theorem lookField_keeps (h : lookField n s = .next t) : s.engine.Keeps t.engine := by
  obtain ⟨-, rfl⟩ := lookField_next h
  exact .refl _

section
variable {e : Engine} {k : State → Result}

theorem afterFill_keeps {f : Fill} (hf : ∀ {u}, f.state = some u → e.Keeps u.engine)
    (hk : ∀ {u}, k u = .next t → u.engine.Keeps t.engine) (h : afterFill f k = .next t) : e.Keeps t.engine := by
  obtain ⟨u, rfl, hu⟩ | ⟨u, rfl, rfl⟩ | ⟨u, rfl, rfl⟩ := afterFill_next h
  · exact (hf rfl).trans (hk hu)
  · exact (hf rfl).trans u.engine.clear_keeps
  · exact hf (u := u) rfl

theorem afterUncheckedFill_keeps {f : Fill} (hf : ∀ {u}, f.state = some u → e.Keeps u.engine)
    (hk : ∀ {u}, k u = .next t → u.engine.Keeps t.engine) (h : afterUncheckedFill f k = .next t) : e.Keeps t.engine := by
  obtain ⟨u, rfl, hu⟩ | ⟨u, rfl, rfl⟩ := afterUncheckedFill_next h
  · exact (hf rfl).trans (hk hu)
  · exact hf (u := u) rfl

theorem afterDrain_keeps {f : Drain} (hf : ∀ {u}, f.state = some u → e.Keeps u.engine)
    (hk : ∀ {u}, k u = .next t → u.engine.Keeps t.engine) (h : afterDrain f k = .next t) : e.Keeps t.engine := by
  obtain ⟨u, rfl, hu⟩ | ⟨u, rfl, rfl⟩ := afterDrain_next h
  · exact (hf rfl).trans (hk hu)
  · exact hf (u := u) rfl

end

/-! ### The commands that neither begin nor end a lifetime -/

theorem execRead_keeps (h : execRead n s = .next t) : s.engine.Keeps t.engine := by
  unfold execRead at h
  split_ifs at h
  · exact respond_keeps h
  · exact respond_keeps h
  · exact afterFill_keeps readerFill_keeps takeField_keeps h

theorem execPeek_keeps (h : execPeek n s = .next t) : s.engine.Keeps t.engine := by
  unfold execPeek at h
  split_ifs at h
  · exact respond_keeps h
  · exact respond_keeps h
  · exact afterFill_keeps readerFill_keeps lookField_keeps h

theorem execReadu_keeps (h : execReadu n s = .next t) : s.engine.Keeps t.engine := by
  unfold execReadu at h
  split_ifs at h
  · exact respond_keeps h
  · cases h
  · exact afterUncheckedFill_keeps stdFill_keeps takeField_keeps h

theorem execWrite_keeps {data : Data} (h : execWrite n data s = .next t) : s.engine.Keeps t.engine := by
  unfold execWrite at h
  split_ifs at h
  · exact respond_keeps h
  · exact respond_keeps h
  · split at h
    · exact respond_keeps h
    · rename_i e he
      exact (Engine.put_keeps he).trans (afterDrain_keeps drainAll_keeps respond_keeps h)

theorem execFlush_keeps (h : execFlush s = .next t) : s.engine.Keeps t.engine := by
  unfold execFlush at h
  split_ifs at h
  · exact respond_keeps h
  · exact afterDrain_keeps flushAll_keeps respond_keeps h

theorem execAvail_keeps (h : execAvail s = .next t) : s.engine.Keeps t.engine := by
  unfold execAvail at h
  split_ifs at h
  · exact respond_keeps h
  · exact respond_keeps h

/-! ### Every command -/

/-- What a completed command `i` can have done to the engine `e`. -/
inductive Engine.Moves (i : Instr) (e : Engine) : Engine → Prop
  | unchanged : Moves i e e
  | worked {f : Engine} (configured : e.cfgValid = true) (keeps : e.Keeps f) : Moves i e f
  | begun {tier : Tier} {endian : Endian} (command : i = .openCmd tier endian) (idle : e.cfgValid = false) :
      Moves i e (e.configure tier endian)
  | ended (command : i = .close ∨ i = .discard) (configured : e.cfgValid = true) : Moves i e e.unconfigure

/-- OPEN past its check. -/
theorem exec_openCmd {tier : Tier} {endian : Endian} (h : s.engine.cfgValid = false) :
    exec (.openCmd tier endian) s = respond .ok 0#64 (s.withEngine (s.engine.configure tier endian)) := by
  have hl := (legal_iff (.openCmd tier endian) _).mpr h
  simp only [exec, execOpen, hl]; rfl

/-- DISCARD past its check. -/
theorem exec_discard (h : s.engine.cfgValid = true) : exec .discard s = endLifetime s := by
  have hl := (legal_iff .discard _).mpr h
  simp only [exec, execDiscard, hl]; rfl

/-- The end of a lifetime forgets all of the engine but `UB`, so it does not matter what the flush before it did. -/
theorem Engine.SameConfig.unconfigure_eq {e f : Engine} (h : e.SameConfig f) : f.unconfigure = e.unconfigure := by
  obtain ⟨-, -, -, hub⟩ := h
  simp [Engine.unconfigure, Engine.clear, hub]

theorem exec_close_moves (hv : s.engine.cfgValid = true) (h : exec .close s = .next t) : Engine.Moves .close s.engine t.engine := by
  rw [exec_close hv] at h
  split at h
  · obtain ⟨u, hf, hu⟩ | ⟨u, hf, rfl⟩ := afterDrain_next h
    all_goals have hk : s.engine.Keeps u.engine := flushAll_keeps (by rw [hf]; rfl)
    · rw [endLifetime_engine hu, hk.config.unconfigure_eq]
      exact .ended (.inl rfl) hv
    · exact .worked hv hk
  · rw [endLifetime_engine h]
    exact .ended (.inl rfl) hv

theorem exec_moves {i : Instr} (h : exec i s = .next t) : Engine.Moves i s.engine t.engine := by
  by_cases hl : LegalIn i s.engine
  · cases i with
    | openCmd tier endian =>
      rw [exec_openCmd hl] at h
      rw [respond_engine h]
      exact .begun rfl hl
    | read n => exact .worked hl.1 (execRead_keeps h)
    | peek n => exact .worked hl.1 (execPeek_keeps h)
    | readu n => exact .worked hl.1 (execReadu_keeps h)
    | write n data => exact .worked hl.1 (execWrite_keeps h)
    | flush => exact .worked hl.1 (execFlush_keeps h)
    | avail => exact .worked hl (execAvail_keeps h)
    | close => exact exec_close_moves hl h
    | discard =>
      rw [exec_discard hl] at h
      rw [endLifetime_engine h]
      exact .ended (.inr rfl) hl
  · rw [exec_illegal hl] at h
    cases h
    exact .unchanged

/-- Settles O48, by what a command can have done to the engine. -/
theorem configurationIsFixedForLifetime : Obligations.ConfigurationIsFixedForLifetime := by
  intro i s t h
  have hm := exec_moves h
  generalize s.engine = e, t.engine = f at hm ⊢
  cases hm with
  | unchanged => exact ⟨fun _ _ => ⟨rfl, rfl⟩, by simp +contextual, by simp +contextual⟩
  | worked hv hk =>
    obtain ⟨hvalid, htier, hendian, -⟩ := hk.config
    exact ⟨fun _ _ => ⟨htier, hendian⟩, by simp [hv], by simp [hvalid, hv]⟩
  | begun hi hv => exact ⟨by simp [hv], fun _ _ => hi, by simp [hv]⟩
  | ended hi hv => exact ⟨by simp, by simp, fun _ _ => hi⟩

end Sys2Proof.Machine
end

section
/-! PROOFS. No command reads anything of the host (10_state R22): from the same engine, ports and choices with another host agent, it does the
same and gives its one answer to that host. -/

namespace Sys2Proof.Machine

/-- The state with another host agent. -/
def State.withHost (s : State) (a : HostAgent) : State := { s with host := a }

section
variable (s : State) (a : HostAgent)

@[simp] theorem State.withHost_engine : (s.withHost a).engine = s.engine := rfl
@[simp] theorem State.withHost_source : (s.withHost a).source = s.source := rfl
@[simp] theorem State.withHost_sink : (s.withHost a).sink = s.sink := rfl
@[simp] theorem State.withHost_self : s.withHost s.host = s := rfl

/-! Whatever is done to the engine and the ports, the other host can be put in afterwards. -/
@[simp] theorem State.withHost_withEngine (e : Engine) : (s.withHost a).withEngine e = (s.withEngine e).withHost a := rfl
@[simp] theorem State.withHost_pulled : (s.withHost a).pulled = s.pulled.withHost a := rfl
@[simp] theorem State.withHost_offered (b : Byte) : (s.withHost a).offered b = (s.offered b).withHost a := rfl

end

/-- How a refill ends, with another host agent. -/
def Fill.withHost (a : HostAgent) : Fill → Fill
  | .done s => .done (s.withHost a)
  | .eos s => .eos (s.withHost a)
  | .overflow s => .overflow (s.withHost a)
  | .never => .never

/-- How a drain ends, with another host agent. -/
def Drain.withHost (a : HostAgent) : Drain → Drain
  | .done s => .done (s.withHost a)
  | .refused s => .refused (s.withHost a)
  | .undefined s => .undefined (s.withHost a)
  | .never => .never

/-! ### Refills and drains -/

theorem fillBytes_withHost (k : Nat) (s : State) (a : HostAgent) : fillBytes k (s.withHost a) = (fillBytes k s).withHost a := by
  induction k generalizing s with
  | zero => rfl
  | succ k ih =>
    simp only [fillBytes, State.withHost_source, State.withHost_engine, State.withHost_pulled, State.withHost_withEngine]
    split
    · split
      · exact ih _
      · rfl
    · rfl
    · rfl

theorem prefetchBytes_withHost (k : Nat) (s : State) (a : HostAgent) :
    prefetchBytes k (s.withHost a) = (prefetchBytes k s).withHost a := by
  induction k generalizing s with
  | zero => rfl
  | succ k ih =>
    simp only [prefetchBytes, State.withHost_source, State.withHost_engine, State.withHost_pulled, State.withHost_withEngine]
    split
    · split
      · exact ih _
      · rfl
    · rfl
    · rfl

theorem stdFill_withHost (n : Nat) (s : State) (a : HostAgent) : stdFill n (s.withHost a) = (stdFill n s).withHost a :=
  fillBytes_withHost _ s a

theorem optionalFill_withHost (s : State) (a : HostAgent) : optionalFill (s.withHost a) = (optionalFill s).withHost a :=
  prefetchBytes_withHost _ { s with prefetch := s.prefetch.drawn } a

theorem bulkFill_withHost (n : Nat) (s : State) (a : HostAgent) : bulkFill n (s.withHost a) = (bulkFill n s).withHost a := by
  unfold bulkFill
  rw [stdFill_withHost]
  cases stdFill n s with
  | done t =>
    simp only [Fill.withHost, State.withHost_engine, optionalFill_withHost]
    split <;> rfl
  | eos t => rfl
  | overflow t => rfl
  | never => rfl

theorem readerFill_withHost (n : Nat) (s : State) (a : HostAgent) : readerFill n (s.withHost a) = (readerFill n s).withHost a := by
  unfold readerFill
  rw [stdFill_withHost, bulkFill_withHost, State.withHost_engine]
  split <;> rfl

theorem drainBytes_withHost (k : Nat) (s : State) (a : HostAgent) : drainBytes k (s.withHost a) = (drainBytes k s).withHost a := by
  induction k generalizing s with
  | zero => rfl
  | succ k ih =>
    simp only [drainBytes, State.withHost_engine, State.withHost_sink, State.withHost_offered, State.withHost_withEngine]
    split
    · split
      · exact ih _
      · rfl
      · rfl
    · rfl

theorem drainAll_withHost (s : State) (a : HostAgent) : drainAll (s.withHost a) = (drainAll s).withHost a :=
  drainBytes_withHost _ s a

theorem padOut_withHost (s : State) (a : HostAgent) : padOut (s.withHost a) = (padOut s).withHost a := by
  unfold padOut
  rw [State.withHost_engine, State.withHost_sink]
  split
  · split
    · split <;> rfl
    · rfl
  · rfl

theorem flushAll_withHost (s : State) (a : HostAgent) : flushAll (s.withHost a) = (flushAll s).withHost a := by
  unfold flushAll
  rw [drainAll_withHost]
  cases drainAll s with
  | done t => exact padOut_withHost t a
  | refused t => rfl
  | undefined t => rfl
  | never => rfl

/-! ### Ends of commands, and commands -/

/-- A command, or the end of one, that completes gives one response; with any other host agent it does the same and gives that agent the same
response. -/
def HostBlind (f : State → Result) : Prop :=
  ∀ s t, f s = .next t → ∃ r, ∀ a, f (s.withHost a) = .next ((t.withHost a).answered r)

/-- A response whose result and state are made from anything but the host. -/
theorem hostBlind_respond_of (st : Status) {v : State → Data} {g : State → State} (hv : ∀ s a, v (s.withHost a) = v s)
    (hg : ∀ s a, g (s.withHost a) = (g s).withHost a) : HostBlind fun s => respond st (v s) (g s) := by
  intro s t h
  cases respond_eq h
  simp only [hv, hg]
  exact ⟨⟨st, v s⟩, fun _ => rfl⟩

theorem hostBlind_respond (st : Status) (v : Data) : HostBlind (respond st v) :=
  hostBlind_respond_of st (fun _ _ => rfl) (fun _ _ => rfl)

theorem hostBlind_raise (st : Status) : HostBlind (raise st) := hostBlind_respond st 0#64

theorem hostBlind_endLifetime : HostBlind endLifetime :=
  hostBlind_respond_of .ok (fun _ _ => rfl) (fun _ _ => rfl)

theorem hostBlind_takeField (n : Nat) : HostBlind (takeField n) := by
  intro s t h
  obtain ⟨hn, rfl⟩ := takeField_next h
  exact ⟨⟨.ok, s.engine.oldest n⟩, fun a => takeField_eq (s := s.withHost a) hn⟩

theorem hostBlind_lookField (n : Nat) : HostBlind (lookField n) := by
  intro s t h
  obtain ⟨hn, rfl⟩ := lookField_next h
  exact ⟨⟨.ok, s.engine.oldest n⟩, fun a => lookField_eq (s := s.withHost a) hn⟩

/-- Where a command decides between two ways by anything but the host. -/
theorem hostBlind_ite {c : State → Prop} [DecidablePred c] {f g : State → Result} (hc : ∀ s a, c (s.withHost a) ↔ c s)
    (hf : HostBlind f) (hg : HostBlind g) : HostBlind fun s => if c s then f s else g s := by
  intro s t h
  beta_reduce at h
  simp only [hc]
  split_ifs at h ⊢
  · exact hf s t h
  · exact hg s t h

section
variable {k : State → Result} (hk : HostBlind k)
include hk

theorem hostBlind_afterFill {fill : State → Fill} (hf : ∀ s a, fill (s.withHost a) = (fill s).withHost a) :
    HostBlind fun s => afterFill (fill s) k := by
  intro s t h
  simp only [hf]
  obtain ⟨u, hu, ht⟩ | ⟨u, hu, rfl⟩ | ⟨u, hu, rfl⟩ := afterFill_next h
  · rw [hu]; exact hk u t ht
  · rw [hu]; exact ⟨⟨.endOfStream, 0#64⟩, fun _ => rfl⟩
  · rw [hu]; exact ⟨⟨.overflow, 0#64⟩, fun _ => rfl⟩

theorem hostBlind_afterUncheckedFill {fill : State → Fill} (hf : ∀ s a, fill (s.withHost a) = (fill s).withHost a) :
    HostBlind fun s => afterUncheckedFill (fill s) k := by
  intro s t h
  simp only [hf]
  obtain ⟨u, hu, ht⟩ | ⟨u, hu, rfl⟩ := afterUncheckedFill_next h
  · rw [hu]; exact hk u t ht
  · rw [hu]; exact ⟨⟨.overflow, 0#64⟩, fun _ => rfl⟩

theorem hostBlind_afterDrain {drain : State → Drain} (hd : ∀ s a, drain (s.withHost a) = (drain s).withHost a) :
    HostBlind fun s => afterDrain (drain s) k := by
  intro s t h
  simp only [hd]
  obtain ⟨u, hu, ht⟩ | ⟨u, hu, rfl⟩ := afterDrain_next h
  · rw [hu]; exact hk u t ht
  · rw [hu]; exact ⟨⟨.sinkFail, 0#64⟩, fun _ => rfl⟩

end

theorem hostBlind_faultUndefined : HostBlind faultUndefined := fun _ _ h => nomatch h

theorem hostBlind_execWrite (n : Nat) (data : Data) : HostBlind (execWrite n data) := by
  refine hostBlind_ite (fun _ _ => .rfl) (hostBlind_raise _) <| hostBlind_ite (fun _ _ => .rfl) (hostBlind_raise _) fun s t h => ?_
  simp only [State.withHost_engine, State.withHost_withEngine]
  split at h
  · exact hostBlind_raise _ s t h
  · rename_i e _
    exact hostBlind_afterDrain (hostBlind_respond _ _) drainAll_withHost (s.withEngine e) t h

theorem hostBlind_exec (i : Instr) : HostBlind (exec i) := by
  cases i with
  | openCmd tier endian =>
    exact hostBlind_ite (fun _ _ => .rfl) (hostBlind_raise _) <| hostBlind_respond_of .ok (fun _ _ => rfl) (fun _ _ => rfl)
  | read n =>
    exact hostBlind_ite (fun _ _ => .rfl) (hostBlind_raise _) <| hostBlind_ite (fun _ _ => .rfl) (hostBlind_raise _) <|
      hostBlind_afterFill (hostBlind_takeField n) (readerFill_withHost n)
  | peek n =>
    exact hostBlind_ite (fun _ _ => .rfl) (hostBlind_raise _) <| hostBlind_ite (fun _ _ => .rfl) (hostBlind_raise _) <|
      hostBlind_afterFill (hostBlind_lookField n) (readerFill_withHost n)
  | readu n =>
    exact hostBlind_ite (fun _ _ => .rfl) (hostBlind_raise _) <| hostBlind_ite (fun _ _ => .rfl) hostBlind_faultUndefined <|
      hostBlind_afterUncheckedFill (hostBlind_takeField n) (stdFill_withHost n)
  | write n data => exact hostBlind_execWrite n data
  | flush =>
    exact hostBlind_ite (fun _ _ => .rfl) (hostBlind_raise _) <| hostBlind_afterDrain (hostBlind_respond _ _) flushAll_withHost
  | avail =>
    exact hostBlind_ite (fun _ _ => .rfl) (hostBlind_raise _) <| hostBlind_respond_of .ok (fun _ _ => rfl) (fun _ _ => rfl)
  | close =>
    exact hostBlind_ite (fun _ _ => .rfl) (hostBlind_raise _) <| hostBlind_ite (fun _ _ => .rfl)
      (hostBlind_afterDrain hostBlind_endLifetime flushAll_withHost) hostBlind_endLifetime
  | discard => exact hostBlind_ite (fun _ _ => .rfl) (hostBlind_raise _) hostBlind_endLifetime

/-- A completed command adds one response and changes nothing else of the host, and any other host would have received the same. -/
theorem exec_next_host {i : Instr} {s t : State} (h : exec i s = .next t) :
    ∃ r, t.host = { s.host with responses := s.host.responses ++ [r] } ∧
      ∀ a, exec i (s.withHost a) = .next ((t.withHost a).answered r) := by
  obtain ⟨r, hr⟩ := hostBlind_exec i s t h
  refine ⟨r, ?_, hr⟩
  have hself := hr s.host
  rw [State.withHost_self, h] at hself
  injection hself with ht
  rw [ht]; rfl

/-- Settles O51: a host agent with other responses is one more host agent. -/
theorem noCommandReadsResponses : Obligations.NoCommandReadsResponses := by
  intro i s t before h
  obtain ⟨r, hhost, hother⟩ := exec_next_host h
  refine ⟨r, by rw [hhost], ?_⟩
  rw [hhost]
  exact hother { s.host with responses := before }

end Sys2Proof.Machine
end

section
/-! PROOFS. The invariant of a run (10_state R24 to R26, R28, R21): it holds at reset, and every move of the host keeps it. -/

namespace Sys2Proof.Machine

variable {s t : State} {i : Instr}

/-! ### The engine -/

theorem Engine.Moves.accOk {e f : Engine} (h : Engine.Moves i e f) (ha : e.AccOk) : f.AccOk := by
  cases h with
  | unchanged => exact ha
  | worked _ hk => exact hk.accOk ha
  | begun => exact e.clear_accOk
  | ended => exact e.clear_accOk

theorem Engine.Moves.idleOk {e f : Engine} (h : Engine.Moves i e f) (hi : e.IdleOk) : f.IdleOk := by
  cases h with
  | unchanged => exact hi
  | worked hv hk =>
    obtain ⟨hvalid, -⟩ := hk.config
    simp [Engine.IdleOk, hvalid, hv]
  | begun => simp [Engine.IdleOk]
  | ended => simp [Engine.IdleOk]

theorem Engine.Moves.ub_eq {e f : Engine} (h : Engine.Moves i e f) : f.ub = e.ub := by
  cases h with
  | unchanged => rfl
  | worked _ hk =>
    obtain ⟨-, -, -, hub⟩ := hk.config
    exact hub
  | begun => rfl
  | ended => rfl

theorem Engine.reset_accOk : Engine.reset.AccOk := Engine.clear_accOk Engine.reset

theorem Engine.reset_idleOk : Engine.reset.IdleOk := fun _ => ⟨rfl, rfl, rfl, rfl⟩

/-! ### The moves of the host -/

theorem State.resetOf_inv (k : Nat) : (State.resetOf k).Inv :=
  ⟨Engine.reset_accOk, Engine.reset_idleOk, rfl, Nat.le_refl 0⟩

theorem State.Inv.ub_eq (h : s.Inv) : s.engine.ub = false := by
  obtain ⟨-, -, hu, -⟩ := h
  exact hu

theorem State.Inv.resetEngine (h : s.Inv) : s.resetEngine.Inv := by
  obtain ⟨-, -, -, hx⟩ := h
  exact ⟨Engine.reset_accOk, Engine.reset_idleOk, rfl, hx⟩

/-- A move the host does make was within its program. -/
theorem State.Inv.moved {m : HostMove} (h : s.Inv) (hm : s.nextMove = some m) : s.moved.Inv := by
  obtain ⟨ha, hi, hu, -⟩ := h
  obtain ⟨hlt, -⟩ := List.getElem?_eq_some_iff.mp hm
  exact ⟨ha, hi, hu, hlt⟩

theorem State.Inv.of_exec (h : s.Inv) (hs : exec i s = .next t) : t.Inv := by
  obtain ⟨ha, hi, hu, hx⟩ := h
  have hm := exec_moves hs
  obtain ⟨r, hhost, -⟩ := exec_next_host hs
  refine ⟨hm.accOk ha, hm.idleOk hi, hm.ub_eq.trans hu, ?_⟩
  rw [hhost]; exact hx

theorem State.Inv.of_issue {cmd : CmdWord} {data : Data} (h : s.Inv) (hs : issue cmd data s = .next t) : t.Inv := by
  cases hd : decode cmd data with
  | instr i =>
    rw [issue_of_decode_instr hd] at hs
    exact h.of_exec hs
  | illegal why =>
    rw [issue_of_decode_illegal hd] at hs
    rw [respond_eq hs]
    exact h

/-! ### The statements -/

/-- Settles O2: reset is number 0 of the platform's reset states. -/
theorem resetMeetsInvariant : Obligations.ResetMeetsInvariant := State.resetOf_inv 0

/-- Settles O47, move by move of the host. -/
theorem stepKeepsInvariant : Obligations.StepKeepsInvariant := by
  intro s t hinv hs
  have hu := hinv.ub_eq
  match hm : s.nextMove with
  | none =>
    rw [step_of_nextMove_none hu hm] at hs
    cases hs
    exact hinv
  | some .reset =>
    rw [step_of_nextMove_reset hu hm] at hs
    cases hs
    exact (hinv.moved hm).resetEngine
  | some (.command cmd data) =>
    rw [step_of_nextMove_command hu hm] at hs
    exact (hinv.moved hm).of_issue hs

end Sys2Proof.Machine
end

section
/-! PROOFS. A value that is a whole number of bytes wide, as the stream bits of its bytes (20_memory R57 to R59). -/

namespace Sys2Proof.Machine

/-- The stream bits of the byte of `v` whose lowest bit is bit `lo`. -/
theorem byteBits_extractLsb' {w : Nat} (d : Endian) (v : BitVec w) (lo : Nat) :
    byteBits d (v.extractLsb' lo 8) = bitsInOrder d 8 fun i => v.getLsbD (lo + i) :=
  bitsInOrder_congr fun i hi => by simp [hi]

/-- LSB first, each further byte comes last and is more significant. -/
theorem bitsUp_eq_streamBits {w : Nat} (v : BitVec w) (k : Nat) :
    bitsUp (8 * k) v.getLsbD = streamBits .le ((List.range k).map fun j => v.extractLsb' (8 * j) 8) := by
  induction k with
  | zero => rfl
  | succ k ih =>
    rw [List.range_succ, List.map_append, streamBits_append, ← ih, Nat.mul_succ, bitsUp_add, List.map_singleton, streamBits_cons,
      byteBits_extractLsb', streamBits_nil, List.append_nil]
    rfl

/-- MSB first, each further byte comes first and is more significant. -/
theorem bitsDown_eq_streamBits {w : Nat} (v : BitVec w) (k : Nat) :
    bitsDown (8 * k) v.getLsbD = streamBits .be ((List.range k).map fun j => v.extractLsb' (8 * (k - 1 - j)) 8) := by
  induction k with
  | zero => rfl
  | succ k ih =>
    have hrest : ∀ j, k + 1 - 1 - (j + 1) = k - 1 - j := fun j => by omega
    simp only [List.range_succ_eq_map, List.map_cons, List.map_map, Function.comp_def, Nat.succ_eq_add_one, hrest, streamBits_cons,
      byteBits_extractLsb', ← ih]
    rw [Nat.mul_succ, Nat.add_comm, bitsDown_add]
    rfl

/-- Settles O24: eight bytes of the lemma for any number of them, in each bit order. -/
theorem wideFieldByteOrder : Obligations.WideFieldByteOrder :=
  fun v => ⟨bitsDown_eq_streamBits v 8, bitsUp_eq_streamBits v 8⟩

end Sys2Proof.Machine
end

section
/-! PROOFS. A port that never answers: the command has no next state (20_memory R56). -/

namespace Sys2Proof.Machine

variable {n : Nat} {s : State}

/-! ### The source -/

theorem stdFill_never {bs : List Byte} {rest : List SourceAnswer} (hn : n ≤ 64)
    (h : s.source.answers (s.engine.need n) = bs.map .byte ++ .never :: rest) : stdFill n s = .never := by
  rcases Engine.need_le s.engine hn with hneed | hroom
  · simp [hneed, Source.answers] at h
  · exact fillBytes_never hroom h

theorem readerFill_of_stdFill_never (h : stdFill n s = .never) : readerFill n s = .never := by
  simp [readerFill, bulkFill, h]

/-- A pull is needed when the accumulator does not hold the whole request (41_reader R132). -/
theorem Engine.need_pos {e : Engine} (h : e.count < n) : 0 < e.need n := by
  unfold Engine.need ceilDiv
  rw [if_neg (by omega)]; omega

/-- After all the mandatory bytes `bs`, one of the optional pulls is never answered (70 R277). -/
theorem readerFill_never_of_optional {bs extra : List Byte} {rest : List SourceAnswer} (htier : s.engine.tier ≠ .std) (hn : n ≤ 64)
    (hlt : s.engine.count < n) (hbs : s.source.answers (s.engine.need n) = bs.map .byte)
    (h : (s.source.after (s.engine.need n)).answers
      (min s.prefetch.wish (min s.prefetch.maxExtra ((71 - (s.engine.count + 8 * s.engine.need n)) / 8))) =
        extra.map .byte ++ .never :: rest) :
    readerFill n s = .never := by
  have hpos := Engine.need_pos hlt
  have hroom : s.engine.count + 8 * s.engine.need n ≤ 71 := by
    have := Engine.need_le s.engine hn; omega
  obtain ⟨e, he, hc⟩ := fillBytes_done_of_bytes hroom hbs
  have hstd : stdFill n s = .done { s with engine := e, source := s.source.after (s.engine.need n) } := he
  simp only [readerFill, bulkFill, htier, hstd, hpos, if_true, if_false]
  rw [← hc] at h
  refine prefetchBytes_never ?_ h
  simp only [State.prefetchCount, State.prefetchBound, cntMax]
  omega

theorem exec_read_never (hl : LegalIn (.read n) s.engine) (h1 : 1 ≤ n) (h2 : n ≤ 64) (h : readerFill n s = .never) :
    exec (.read n) s = .fault .sourceNeverAnswers := by
  rw [exec_read hl h1 h2, h]; rfl

theorem exec_peek_never (hl : LegalIn (.peek n) s.engine) (h1 : 1 ≤ n) (h2 : n ≤ 64) (h : readerFill n s = .never) :
    exec (.peek n) s = .fault .sourceNeverAnswers := by
  rw [exec_peek hl h1 h2, h]; rfl

theorem exec_readu_never (hl : LegalIn (.readu n) s.engine) (h1 : 1 ≤ n) (h2 : n ≤ 64) (h : stdFill n s = .never) :
    exec (.readu n) s = .fault .sourceNeverAnswers := by
  rw [exec_readu hl h1 h2, h]; rfl

/-- Settles O30: the refill is never done, whichever of its pulls is the one without an answer. -/
theorem unansweredPullHangs : Obligations.UnansweredPullHangs := by
  constructor
  · intro n s bs rest hv h1 h2 h
    have hf := stdFill_never h2 h
    have hr := readerFill_of_stdFill_never hf
    exact ⟨fun ht => ⟨exec_read_never ⟨hv, ht⟩ h1 h2 hr, exec_peek_never ⟨hv, ht⟩ h1 h2 hr⟩,
      fun ht => exec_readu_never ⟨hv, ht⟩ h1 h2 hf⟩
  · rintro n s bs extra rest _ _ ⟨hv, ht⟩ h1 h2 hlt rfl hbs rfl h
    have hr := readerFill_never_of_optional (by simp [ht]) h2 hlt hbs h
    exact ⟨exec_read_never ⟨hv, .inr ht⟩ h1 h2 hr, exec_peek_never ⟨hv, .inr ht⟩ h1 h2 hr⟩

/-! ### The sink -/

theorem Sink.answers_length (k : Nat) (q : Sink) : (q.answers k).length = k := by
  induction k generalizing q with
  | zero => rfl
  | succ k ih => simp [Sink.answers, ih]

/-- The answers to fewer offers are the first ones. -/
theorem Sink.answers_take {j k : Nat} (q : Sink) (h : j ≤ k) : (q.answers k).take j = q.answers j := by
  induction j generalizing k q with
  | zero => rfl
  | succ j ih =>
    obtain ⟨k, rfl⟩ := Nat.exists_eq_add_of_le' (Nat.zero_lt_of_lt h)
    simp only [Sink.answers, List.take_succ_cons]
    rw [ih _ (Nat.le_of_succ_le_succ h)]

/-- One of the full bytes is offered and never answered. -/
theorem drainBytes_never {k j : Nat} {rest : List SinkAnswer} (ha : s.engine.AccOk) (hk : 8 * k ≤ s.engine.count)
    (h : s.sink.answers k = List.replicate j .accept ++ .never :: rest) : drainBytes k s = .never := by
  induction j generalizing k s with
  | zero =>
    obtain ⟨m, rfl, hb, -⟩ := Sink.answers_cons 0#8 h
    obtain ⟨b, f, hbf, -⟩ := Engine.drainByte_some ha (by omega)
    simp only [drainBytes, hbf, hb]
  | succ j ih =>
    rw [List.replicate_succ, List.cons_append] at h
    obtain ⟨m, rfl, -⟩ := Sink.answers_cons 0#8 h
    obtain ⟨b, f, hbf, -, hc, hok, -⟩ := Engine.drainByte_some ha (by omega)
    obtain ⟨_, hm, hb, hl⟩ := Sink.answers_cons b h
    cases hm
    simp only [drainBytes, hbf, hb]
    exact ih (s := (s.offered b).withEngine f) hok (by simp only [State.withEngine_engine]; omega) hl

/-- The padded byte of a flush is offered and never answered. -/
theorem padOut_never (hpos : 0 < s.engine.count) (hlt : s.engine.count < 8) (h : s.sink.answer = .never) : padOut s = .never := by
  have hpad : ¬ (s.engine.count = 0 ∨ s.engine.count ≥ 8) := by omega
  simp only [padOut, Engine.padByte, if_pos hpos, if_neg hpad, h]

/-- One of the offers of a flush, the full bytes and then the padded one, is never answered. -/
theorem flushAll_never {j : Nat} {rest : List SinkAnswer} (ha : s.engine.AccOk)
    (h : s.sink.answers ((s.engine.count + 7) / 8) = List.replicate j .accept ++ .never :: rest) : flushAll s = .never := by
  have hlen := congrArg List.length h
  simp only [Sink.answers_length, List.length_append, List.length_replicate, List.length_cons] at hlen
  have hfull := Sink.answers_take s.sink (show s.engine.count / 8 ≤ (s.engine.count + 7) / 8 by omega)
  rw [h, List.take_append, List.length_replicate, List.take_replicate] at hfull
  rcases Nat.lt_or_ge j (s.engine.count / 8) with hlt | hge
  · obtain ⟨m, hm⟩ := Nat.exists_eq_add_of_lt hlt
    have hdrain : drainAll s = .never := by
      refine drainBytes_never (j := j) (rest := rest.take m) ha (by omega) ?_
      rw [← hfull, Nat.min_eq_right hlt.le, hm, show j + m + 1 - j = m + 1 by omega, List.take_succ_cons]
    simp only [flushAll, hdrain]
  · obtain rfl : j = s.engine.count / 8 := by omega
    rw [Nat.min_self, Nat.sub_self, List.take_zero, List.append_nil] at hfull
    obtain ⟨bs, e, he, hbs, -, hc, -⟩ := drainBytes_accept ha (by omega) hfull.symm
    rw [← hbs] at h
    obtain ⟨hnext, -⟩ := Sink.answers_after h
    obtain ⟨-, -, hnever, -⟩ := Sink.answers_cons 0#8 hnext
    have hdrain : drainAll s = .done { s with engine := e, sink := s.sink.offeredAll bs } := he
    simp only [flushAll, hdrain]
    exact padOut_never (show 0 < e.count by omega) (show e.count < 8 by omega) hnever

/-- Settles O43: the drain or the flush is never done. -/
theorem unansweredOfferHangs : Obligations.UnansweredOfferHangs := by
  rintro n d s j rest ⟨hv, ht⟩ ha
  constructor
  · intro h1 h2 hroom h
    have hc : (s.engine.insert (widenData (lowData d n)) n).count = s.engine.count + n := Engine.insert_count hroom
    have hok := Engine.insert_accOk ha hroom (widenData_lowData_high d n)
    have hdrain : drainAll (s.withEngine (s.engine.insert (widenData (lowData d n)) n)) = .never := by
      rw [← hc] at h
      exact drainBytes_never hok (Nat.mul_div_le _ _) h
    rw [exec_write ⟨hv, ht⟩ h1 h2 hroom, hdrain]
    rfl
  · intro h
    have hflush := flushAll_never ha h
    rw [exec_flush ⟨hv, ht⟩, exec_close hv, if_pos ht, hflush]
    exact ⟨rfl, rfl⟩

end Sys2Proof.Machine
end

section
/-! PROOFS. Which port a command uses, and how often (20_memory R50, R62): a command touches no agent, or a reader makes pulls, or a writer
makes offers. -/

namespace Sys2Proof.Machine

variable {s t u : State} {n k : Nat}

/-! ### Runs of pulls and of offers -/

@[simp] theorem Source.after_owner (k : Nat) (q : Source) : (q.after k).owner = q.owner := by
  induction k generalizing q with
  | zero => rfl
  | succ k ih => exact ih q.pulled

/-- One pull delivers one byte or none (R52). -/
theorem Source.pulled_delivered (q : Source) : ∃ more, q.pulled.delivered = q.delivered ++ more ∧ more.length ≤ 1 := by
  cases h : q.answer with
  | byte b => exact ⟨[b], Source.pulled_byte h, Nat.le_refl 1⟩
  | eos => exact ⟨[], by simp [Source.pulled, h], Nat.zero_le 1⟩
  | never => exact ⟨[], by simp [Source.pulled, h], Nat.zero_le 1⟩

theorem Source.after_delivered_append (k : Nat) (q : Source) :
    ∃ more, (q.after k).delivered = q.delivered ++ more ∧ more.length ≤ k := by
  induction k generalizing q with
  | zero => exact ⟨[], by simp [Source.after], Nat.le_refl 0⟩
  | succ k ih =>
    obtain ⟨first, hfirst, hlen⟩ := q.pulled_delivered
    obtain ⟨more, hmore, hlen'⟩ := ih q.pulled
    exact ⟨first ++ more, by rw [Source.after, hmore, hfirst, List.append_assoc], by rw [List.length_append]; omega⟩

@[simp] theorem Sink.offeredAll_owner (bs : List Byte) (q : Sink) : (q.offeredAll bs).owner = q.owner := by
  induction bs generalizing q with
  | nil => rfl
  | cons b bs ih => exact ih (q.offered b)

/-- One offer appends its byte or nothing (R54). -/
theorem Sink.offered_bytes (q : Sink) (b : Byte) : ∃ more, (q.offered b).bytes = q.bytes ++ more := by
  cases h : q.answer with
  | accept => exact ⟨[b], Sink.offered_accept b h⟩
  | refuse => exact ⟨[], by simp [Sink.offered, h]⟩
  | never => exact ⟨[], by simp [Sink.offered, h]⟩

theorem Sink.offeredAll_bytes_append (bs : List Byte) (q : Sink) : ∃ more, (q.offeredAll bs).bytes = q.bytes ++ more := by
  induction bs generalizing q with
  | nil => exact ⟨[], by simp [Sink.offeredAll]⟩
  | cons b bs ih =>
    obtain ⟨first, hfirst⟩ := q.offered_bytes b
    obtain ⟨more, hmore⟩ := ih (q.offered b)
    exact ⟨first ++ more, by rw [Sink.offeredAll, hmore, hfirst, List.append_assoc]⟩

/-! ### What is done to the agents -/

/-- The ports' agents and the prefetch choices are as they were. -/
structure State.SameAgents (s t : State) : Prop where
  source : t.source = s.source
  sink : t.sink = s.sink
  prefetch : t.prefetch = s.prefetch

/-- At most `k` pulls, and in the BULK tier perhaps one prefetch draw. -/
structure State.Pulls (k : Nat) (s t : State) : Prop where
  source : ∃ j ≤ k, t.source = s.source.after j
  sink : t.sink = s.sink
  prefetch : t.prefetch = s.prefetch ∨ s.engine.tier = .bulk ∧ t.prefetch = s.prefetch.drawn

/-- At most `k` offers. -/
structure State.Offers (k : Nat) (s t : State) : Prop where
  source : t.source = s.source
  sink : ∃ bs : List Byte, bs.length ≤ k ∧ t.sink = s.sink.offeredAll bs
  prefetch : t.prefetch = s.prefetch

/-! What was done from a state with another engine was done to the same agents. -/
theorem State.SameAgents.of_withEngine {e : Engine} (h : (s.withEngine e).SameAgents t) : s.SameAgents t :=
  ⟨h.source, h.sink, h.prefetch⟩

theorem State.Offers.of_withEngine {e : Engine} (h : (s.withEngine e).Offers k t) : s.Offers k t :=
  ⟨h.source, h.sink, h.prefetch⟩

theorem State.Pulls.trans_same (h : s.Pulls k u) (hu : u.SameAgents t) : s.Pulls k t := by
  obtain ⟨hsource, hsink, hprefetch⟩ := hu
  exact ⟨hsource ▸ h.source, hsink.trans h.sink, hprefetch ▸ h.prefetch⟩

theorem State.Offers.trans_same (h : s.Offers k u) (hu : u.SameAgents t) : s.Offers k t := by
  obtain ⟨hsource, hsink, hprefetch⟩ := hu
  exact ⟨hsource.trans h.source, hsink ▸ h.sink, hprefetch.trans h.prefetch⟩

theorem State.Offers.mono {m : Nat} (h : s.Offers k t) (hkm : k ≤ m) : s.Offers m t := by
  obtain ⟨bs, hlen, hbs⟩ := h.sink
  exact ⟨h.source, ⟨bs, hlen.trans hkm, hbs⟩, h.prefetch⟩

theorem State.Offers.trans {m : Nat} (h : s.Offers k u) (hu : u.Offers m t) : s.Offers (k + m) t := by
  obtain ⟨bs, hlen, hbs⟩ := h.sink
  obtain ⟨cs, hlen', hcs⟩ := hu.sink
  refine ⟨hu.source.trans h.source, ⟨bs ++ cs, ?_, ?_⟩, hu.prefetch.trans h.prefetch⟩
  · rw [List.length_append]; omega
  · rw [hcs, hbs, Sink.offeredAll_append]

/-! ### Refills -/

/-- A prefetch ends in the state in which a mandatory refill of as many bytes would end; only the name of an EOS differs (41_reader R136). -/
theorem prefetchBytes_state (k : Nat) (s : State) : (prefetchBytes k s).state = (fillBytes k s).state := by
  induction k generalizing s with
  | zero => rfl
  | succ k ih =>
    simp only [prefetchBytes, fillBytes]
    split
    · split
      · exact ih _
      · rfl
    · rfl
    · rfl

theorem fillBytes_source (h : (fillBytes k s).state = some t) : ∃ j ≤ k, t.source = s.source.after j := by
  induction k generalizing s with
  | zero => cases h; exact ⟨0, Nat.le_refl 0, rfl⟩
  | succ k ih =>
    simp only [fillBytes] at h
    split at h
    · split at h
      · obtain ⟨j, hj, hsource⟩ := ih h
        exact ⟨j + 1, Nat.succ_le_succ hj, hsource⟩
      · cases h; exact ⟨1, Nat.le_add_left 1 k, rfl⟩
    · cases h; exact ⟨1, Nat.le_add_left 1 k, rfl⟩
    · cases h

theorem fillBytes_pulls (h : (fillBytes k s).state = some t) : s.Pulls k t := by
  obtain ⟨hsink, -, hprefetch, -⟩ := fillBytes_frame h
  exact ⟨fillBytes_source h, hsink, .inl hprefetch⟩

/-- A refill for a width of at most 64 asks for at most 8 mandatory bytes (R62). -/
theorem Engine.need_le_eight (e : Engine) (hn : n ≤ 64) : e.need n ≤ 8 := by
  have := e.need_le hn; omega

theorem stdFill_pulls (hn : n ≤ 64) (h : (stdFill n s).state = some t) : s.Pulls 8 t := by
  obtain ⟨⟨j, hj, hsource⟩, hsink, hprefetch⟩ := fillBytes_pulls h
  exact ⟨⟨j, hj.trans (s.engine.need_le_eight hn), hsource⟩, hsink, hprefetch⟩

/-- A BULK refill is the mandatory one alone, or that one done and then the optional one. -/
theorem bulkFill_state (h : (bulkFill n s).state = some t) :
    (stdFill n s).state = some t ∨
      0 < s.engine.need n ∧ ∃ u, stdFill n s = .done u ∧ (optionalFill u).state = some t := by
  unfold bulkFill at h
  cases hf : stdFill n s with
  | done u =>
    simp only [hf] at h
    split at h
    · exact .inr ⟨‹_›, u, rfl, h⟩
    · exact .inl h
  | eos u => simp only [hf] at h; exact .inl h
  | overflow u => simp only [hf] at h; exact .inl h
  | never => simp only [hf] at h; exact .inl h

/-- The mandatory and the optional pulls of a BULK refill together are at most 8: the room in the accumulator bounds the draw (R62). -/
theorem bulkFill_pulls (htier : s.engine.tier = .bulk) (hn : n ≤ 64) (h : (bulkFill n s).state = some t) : s.Pulls 8 t := by
  obtain h | ⟨hpos, u, hu, h⟩ := bulkFill_state h
  · exact stdFill_pulls hn h
  · have hcount := stdFill_done_count hn hu
    have hroom := s.engine.need_le hn
    have hdraw : u.prefetchCount ≤ (cntMax - u.engine.count) / 8 := (Nat.min_le_right _ _).trans (Nat.min_le_right _ _)
    unfold optionalFill at h
    rw [prefetchBytes_state] at h
    obtain ⟨-, -, hprefetch, -⟩ := fillBytes_frame (t := u) (congrArg Fill.state hu)
    obtain ⟨⟨i, hi, hisource⟩, hisink, -⟩ := fillBytes_pulls (t := u) (congrArg Fill.state hu)
    obtain ⟨-, -, hprefetch', -⟩ := fillBytes_frame h
    obtain ⟨⟨j, hj, hjsource⟩, hjsink, -⟩ := fillBytes_pulls h
    refine ⟨⟨i + j, ?_, ?_⟩, hjsink.trans hisink, .inr ⟨htier, ?_⟩⟩
    · unfold cntMax at hdraw; omega
    · rw [hjsource, Source.after_add, ← hisource]
    · rw [hprefetch', ← hprefetch]

theorem readerFill_pulls (htier : s.engine.tier = .std ∨ s.engine.tier = .bulk) (hn : n ≤ 64) (h : (readerFill n s).state = some t) :
    s.Pulls 8 t := by
  unfold readerFill at h
  split at h
  · exact stdFill_pulls hn h
  · exact bulkFill_pulls (htier.resolve_left ‹_›) hn h

/-! ### Drains -/

theorem drainBytes_sink (h : (drainBytes k s).state = some t) : ∃ bs : List Byte, bs.length ≤ k ∧ t.sink = s.sink.offeredAll bs := by
  induction k generalizing s with
  | zero => cases h; exact ⟨[], Nat.le_refl 0, rfl⟩
  | succ k ih =>
    simp only [drainBytes] at h
    split at h
    · rename_i b _ _
      split at h
      · obtain ⟨bs, hlen, hsink⟩ := ih h
        exact ⟨b :: bs, Nat.succ_le_succ hlen, hsink⟩
      · cases h; exact ⟨[b], Nat.le_add_left 1 k, rfl⟩
      · cases h
    · cases h; exact ⟨[], Nat.zero_le _, rfl⟩

theorem drainAll_offers (h : (drainAll s).state = some t) : s.Offers (s.engine.count / 8) t := by
  obtain ⟨hsource, -, hprefetch, -⟩ := drainBytes_frame h
  exact ⟨hsource, drainBytes_sink h, hprefetch⟩

/-- The pad offers one byte if any bit is pending. -/
theorem padOut_sink (h : (padOut s).state = some t) :
    ∃ bs : List Byte, bs.length ≤ min 1 s.engine.count ∧ t.sink = s.sink.offeredAll bs := by
  unfold padOut at h
  split at h
  · rename_i hpos
    split at h
    · rename_i b _
      split at h
      · cases h; exact ⟨[b], Nat.le_min.mpr ⟨Nat.le_refl 1, hpos⟩, rfl⟩
      · cases h; exact ⟨[b], Nat.le_min.mpr ⟨Nat.le_refl 1, hpos⟩, rfl⟩
      · cases h
    · cases h; exact ⟨[], Nat.zero_le _, rfl⟩
  · cases h; exact ⟨[], Nat.zero_le _, rfl⟩

theorem padOut_offers (h : (padOut s).state = some t) : s.Offers (min 1 s.engine.count) t := by
  obtain ⟨hsource, -, hprefetch, -⟩ := padOut_frame h
  exact ⟨hsource, padOut_sink h, hprefetch⟩

/-- A flush is a drain that is not done, or a drain that is done and then the pad. -/
theorem flushAll_state (h : (flushAll s).state = some t) :
    (drainAll s).state = some t ∨ ∃ u, drainAll s = .done u ∧ (padOut u).state = some t := by
  unfold flushAll at h
  cases hd : drainAll s with
  | done u => simp only [hd] at h; exact .inr ⟨u, rfl, h⟩
  | refused u => simp only [hd] at h; exact .inl h
  | undefined u => simp only [hd] at h; exact .inl h
  | never => simp only [hd] at h; exact .inl h

/-- A flush makes at most `ceil_div(CNT, 8)` offers (43_writer R187). -/
theorem flushAll_offers (h : (flushAll s).state = some t) : s.Offers ((s.engine.count + 7) / 8) t := by
  obtain h | ⟨u, hu, h⟩ := flushAll_state h
  · exact (drainAll_offers h).mono (by omega)
  · have hcount : u.engine.count + 8 * (s.engine.count / 8) = s.engine.count := drainBytes_done_count hu
    exact ((drainAll_offers (t := u) (congrArg Drain.state hu)).trans (padOut_offers h)).mono (by omega)

/-! ### Ends of commands -/

theorem respond_sameAgents {st : Status} {v : Data} (h : respond st v s = .next t) : s.SameAgents t := by
  rw [respond_eq h]; exact ⟨rfl, rfl, rfl⟩

theorem endLifetime_sameAgents (h : endLifetime s = .next t) : s.SameAgents t := by
  rw [respond_eq h]; exact ⟨rfl, rfl, rfl⟩

theorem takeField_sameAgents (h : takeField n s = .next t) : s.SameAgents t := by
  obtain ⟨-, rfl⟩ := takeField_next h
  exact ⟨rfl, rfl, rfl⟩

theorem lookField_sameAgents (h : lookField n s = .next t) : s.SameAgents t := by
  obtain ⟨-, rfl⟩ := lookField_next h
  exact ⟨rfl, rfl, rfl⟩

section
variable {c : State → Result} (hc : ∀ {u}, c u = .next t → u.SameAgents t)
include hc

theorem afterFill_sameAgents {f : Fill} (h : afterFill f c = .next t) : ∃ u, f.state = some u ∧ u.SameAgents t := by
  obtain ⟨u, rfl, hu⟩ | ⟨u, rfl, rfl⟩ | ⟨u, rfl, rfl⟩ := afterFill_next h
  · exact ⟨u, rfl, hc hu⟩
  · exact ⟨u, rfl, ⟨rfl, rfl, rfl⟩⟩
  · exact ⟨u, rfl, ⟨rfl, rfl, rfl⟩⟩

theorem afterUncheckedFill_sameAgents {f : Fill} (h : afterUncheckedFill f c = .next t) : ∃ u, f.state = some u ∧ u.SameAgents t := by
  obtain ⟨u, rfl, hu⟩ | ⟨u, rfl, rfl⟩ := afterUncheckedFill_next h
  · exact ⟨u, rfl, hc hu⟩
  · exact ⟨u, rfl, ⟨rfl, rfl, rfl⟩⟩

theorem afterDrain_sameAgents {f : Drain} (h : afterDrain f c = .next t) : ∃ u, f.state = some u ∧ u.SameAgents t := by
  obtain ⟨u, rfl, hu⟩ | ⟨u, rfl, rfl⟩ := afterDrain_next h
  · exact ⟨u, rfl, hc hu⟩
  · exact ⟨u, rfl, ⟨rfl, rfl, rfl⟩⟩

end

/-! ### Every command -/

/-- How many offers a writer's command makes at most (R62). -/
def Engine.offerBound (e : Engine) : Instr → Nat
  | .write _ _ => 8
  | _ => (e.count + 7) / 8

theorem Engine.offerBound_le_nine {e : Engine} (ha : e.AccOk) (i : Instr) : e.offerBound i ≤ 9 := by
  have hcount : e.count ≤ 71 := ha.1
  unfold Engine.offerBound
  split <;> omega

/-- What a completed command `i` can have done to the agents of the state `s`. -/
inductive State.UsesPort (i : Instr) (s t : State) : Prop
  | neither (same : s.SameAgents t)
  | source (configured : s.engine.cfgValid = true) (reader : s.engine.tier ≠ .writer) (pulls : s.Pulls 8 t)
  | sink (writer : s.engine.Is .writer) (offers : s.Offers (s.engine.offerBound i) t)

/-- A validated reader's command past its legality check: whatever it does after its refill, the pulls are the refill's. -/
theorem validatedRead_usesPort {i : Instr} {c : State → Result} (hl : s.engine.cfgValid = true ∧ (s.engine.tier = .std ∨ s.engine.tier = .bulk))
    (hc : ∀ {u}, c u = .next t → u.SameAgents t)
    (h : (if !validWidth n then raise .invalidWidth s else afterFill (readerFill n s) c) = .next t) : State.UsesPort i s t := by
  obtain ⟨hv, htier⟩ := hl
  split at h
  · exact .neither (respond_sameAgents h)
  · rename_i hw
    obtain ⟨-, hn⟩ := (validWidth_iff n).mp (by simpa using hw)
    obtain ⟨u, hu, hut⟩ := afterFill_sameAgents hc h
    exact .source hv (by rcases htier with ht | ht <;> simp [ht]) ((readerFill_pulls htier hn hu).trans_same hut)

theorem execReadu_usesPort (hl : LegalIn (.readu n) s.engine) (h : execReadu n s = .next t) : State.UsesPort (.readu n) s t := by
  obtain ⟨hv, htier⟩ := hl
  unfold execReadu at h
  split_ifs at h with _ hw
  · exact .neither (respond_sameAgents h)
  · cases h
  · obtain ⟨-, hn⟩ := (validWidth_iff n).mp (by simpa using hw)
    obtain ⟨u, hu, hut⟩ := afterUncheckedFill_sameAgents takeField_sameAgents h
    exact .source hv (by simp [htier]) ((stdFill_pulls hn hu).trans_same hut)

/-- A field that fits leaves the count within `CNT_MAX`, so there are at most 8 full bytes to offer. -/
theorem Engine.put_count_le {e f : Engine} {v : Data} (h : e.put v n = some f) : f.count ≤ cntMax := by
  rw [Engine.put_eq] at h
  split at h
  · cases h
  · cases h; rw [Engine.insert_count (by omega)]; omega

theorem execWrite_usesPort {data : Data} (hl : LegalIn (.write n data) s.engine) (h : execWrite n data s = .next t) :
    State.UsesPort (.write n data) s t := by
  unfold execWrite at h
  split_ifs at h
  · exact .neither (respond_sameAgents h)
  · exact .neither (respond_sameAgents h)
  · split at h
    · exact .neither (respond_sameAgents h)
    · rename_i e he
      obtain ⟨u, hu, hut⟩ := afterDrain_sameAgents respond_sameAgents h
      have hfull : e.count / 8 ≤ 8 := by
        have hroom : e.count ≤ 71 := Engine.put_count_le he
        omega
      exact .sink hl (((drainAll_offers hu).mono hfull).trans_same hut).of_withEngine

theorem exec_usesPort {i : Instr} (h : exec i s = .next t) : State.UsesPort i s t := by
  by_cases hl : LegalIn i s.engine
  · have hlegal := (legal_iff i s.engine).mpr hl
    cases i with
    | openCmd tier endian =>
      rw [exec_openCmd hl] at h
      exact .neither (respond_sameAgents h).of_withEngine
    | read n => exact validatedRead_usesPort hl takeField_sameAgents (by simpa [exec, execRead, hlegal] using h)
    | peek n => exact validatedRead_usesPort hl lookField_sameAgents (by simpa [exec, execPeek, hlegal] using h)
    | readu n => exact execReadu_usesPort hl h
    | write n data => exact execWrite_usesPort hl h
    | flush =>
      rw [exec_flush hl] at h
      obtain ⟨u, hu, hut⟩ := afterDrain_sameAgents respond_sameAgents h
      exact .sink hl ((flushAll_offers hu).trans_same hut)
    | avail => exact .neither (respond_sameAgents (by simpa [exec, execAvail, hlegal] using h))
    | close =>
      rw [exec_close hl] at h
      split at h
      · obtain ⟨u, hu, hut⟩ := afterDrain_sameAgents endLifetime_sameAgents h
        exact .sink ⟨hl, ‹_›⟩ ((flushAll_offers hu).trans_same hut)
      · exact .neither (endLifetime_sameAgents h)
    | discard =>
      rw [exec_discard hl] at h
      exact .neither (endLifetime_sameAgents h)
  · rw [exec_illegal hl] at h
    exact .neither (respond_sameAgents h)

/-! ### The statements -/

/-- Settles O52, by which port a command uses. -/
theorem onePortPerTier : Obligations.OnePortPerTier := by
  intro i s t h
  cases exec_usesPort h with
  | neither same =>
    obtain ⟨hsource, hsink, hprefetch⟩ := same
    simp [hsource, hsink, hprefetch]
  | source hv htier pulls =>
    obtain ⟨⟨j, -, hsource⟩, hsink, hprefetch⟩ := pulls
    obtain ⟨more, hmore, -⟩ := s.source.after_delivered_append j
    have hdelivered : t.source.delivered = s.source.delivered ++ more := by rw [hsource, hmore]
    refine ⟨by simp [hv], fun ht => absurd ht htier, fun _ => hsink, fun hb => hprefetch.resolve_right fun hd => hb hd.1, ?_,
      by simp [hsource], by rw [hsink], ?_, ⟨more, hdelivered⟩, ⟨[], by simp [hsink]⟩⟩
    · rcases hprefetch with hp | ⟨-, hp⟩ <;> simp [hp]
    · rcases hprefetch with hp | ⟨-, hp⟩ <;> simp [hp]
  | sink hw offers =>
    obtain ⟨hsource, ⟨bs, -, hsink⟩, hprefetch⟩ := offers
    obtain ⟨hv, htier⟩ := hw
    have hbytes := s.sink.offeredAll_bytes_append bs
    simp [hv, htier, hsource, hsink, hprefetch, hbytes]

/-- Settles O53. The model's refills stay below the statement's 9 pulls: an optional pull answered EOS is one of those the room allows. -/
theorem transactionBounds : Obligations.TransactionBounds := by
  intro i s t ha h
  cases exec_usesPort h with
  | neither same =>
    obtain ⟨hsource, hsink, -⟩ := same
    simp [hsource, hsink]
  | source _ _ pulls =>
    obtain ⟨⟨j, hj, hsource⟩, hsink, -⟩ := pulls
    obtain ⟨more, hmore, hlen⟩ := s.source.after_delivered_append j
    simp only [hsource, hsink, Source.after_pulls, hmore, List.length_append]
    exact ⟨by omega, fun _ => by omega, by omega, by omega, fun _ _ _ => by omega⟩
  | sink _ offers =>
    obtain ⟨hsource, ⟨bs, hlen, hsink⟩, -⟩ := offers
    have hnine := Engine.offerBound_le_nine ha i
    simp only [hsource, hsink, Sink.offeredAll_offers]
    refine ⟨by omega, fun _ => by omega, by omega, by omega, ?_⟩
    rintro n d rfl
    exact Nat.add_le_add_left hlen _

end Sys2Proof.Machine
end

section
/-! PROOFS. The command word and its fields (30_encoding R71 to R79): packing against unpacking, decoding against encoding, the words that
are no command, and the opcode map (R85). -/

namespace Sys2Proof

open BitVec (extractLsb'_append_eq_of_add_le extractLsb'_append_eq_of_le extractLsb'_append_extractLsb'_eq_extractLsb' extractLsb'_eq_self)

variable {cmd : CmdWord} {data : Data} {i : Instr}

/-! ### The fields of a packed word, and the word of its fields (R71, R74) -/

section
variable (e : BitVec 1) (t : BitVec 2) (n : BitVec 7) (opc : BitVec 4)

@[simp] theorem opcOf_packCmd : opcOf (packCmd e t n opc) = opc :=
  (extractLsb'_append_eq_of_add_le (by decide)).trans extractLsb'_eq_self

@[simp] theorem nOf_packCmd : nOf (packCmd e t n opc) = n :=
  (extractLsb'_append_eq_of_le (by decide)).trans <| (extractLsb'_append_eq_of_add_le (by decide)).trans extractLsb'_eq_self

@[simp] theorem tierBitsOf_packCmd : tierBitsOf (packCmd e t n opc) = t :=
  (extractLsb'_append_eq_of_le (by decide)).trans <| (extractLsb'_append_eq_of_le (by decide)).trans <|
    (extractLsb'_append_eq_of_add_le (by decide)).trans extractLsb'_eq_self

@[simp] theorem endBitOf_packCmd : endBitOf (packCmd e t n opc) = e :=
  (extractLsb'_append_eq_of_le (by decide)).trans <| (extractLsb'_append_eq_of_le (by decide)).trans <|
    (extractLsb'_append_eq_of_le (by decide)).trans <| (extractLsb'_append_eq_of_add_le (by decide)).trans extractLsb'_eq_self

@[simp] theorem rsvOf_packCmd : rsvOf (packCmd e t n opc) = 0#2 :=
  (extractLsb'_append_eq_of_le (by decide)).trans <| (extractLsb'_append_eq_of_le (by decide)).trans <|
    (extractLsb'_append_eq_of_le (by decide)).trans <| (extractLsb'_append_eq_of_le (by decide)).trans extractLsb'_eq_self

end

/-- A word without reserved bits is the packing of its own fields. -/
theorem packCmd_fields (h : rsvOf cmd = 0#2) : packCmd (endBitOf cmd) (tierBitsOf cmd) (nOf cmd) (opcOf cmd) = cmd := by
  have hend : 0#2 ++ endBitOf cmd = cmd.extractLsb' 13 3 := h ▸ extractLsb'_append_extractLsb'_eq_extractLsb' rfl
  have htier : 0#2 ++ endBitOf cmd ++ tierBitsOf cmd = cmd.extractLsb' 11 5 :=
    hend ▸ extractLsb'_append_extractLsb'_eq_extractLsb' rfl
  have hn : 0#2 ++ endBitOf cmd ++ tierBitsOf cmd ++ nOf cmd = cmd.extractLsb' 4 12 :=
    htier ▸ extractLsb'_append_extractLsb'_eq_extractLsb' rfl
  calc packCmd (endBitOf cmd) (tierBitsOf cmd) (nOf cmd) (opcOf cmd)
    _ = cmd.extractLsb' 4 12 ++ cmd.extractLsb' 0 4 := congrArg (· ++ opcOf cmd) hn
    _ = cmd := (extractLsb'_append_extractLsb'_eq_extractLsb' rfl).trans extractLsb'_eq_self

@[simp] theorem tierOfBits_tierBits (t : Tier) : tierOfBits (tierBits t) = t := by cases t <;> rfl

@[simp] theorem endianOfBit_endianBit (e : Endian) : endianOfBit (endianBit e) = e := by cases e <;> rfl

@[simp] theorem tierBits_tierOfBits (b : BitVec 2) : tierBits (tierOfBits b) = b := by revert b; decide

@[simp] theorem endianBit_endianOfBit (b : BitVec 1) : endianBit (endianOfBit b) = b := by revert b; decide

/-! ### Decoding an encoded instruction -/

/-- The instruction with another data operand, which WRITE alone has (R77). -/
def Instr.withData (data : Data) : Instr → Instr
  | .write n _ => .write n data
  | i => i

theorem Instr.withData_encodeData (i : Instr) : i.withData (encodeData i) = i := by cases i <;> rfl

@[simp] theorem rowOf_withData (data : Data) (i : Instr) : rowOf (i.withData data) = rowOf i := by cases i <;> rfl

/-- A word whose only fields are a width and an opcode, as READ, PEEK, READU and WRITE have it. -/
theorem decodeWidth_packCmd {n : Nat} (hn : n < 128) (opc : BitVec 4) (make : Nat → Instr) :
    decodeWidth (packCmd 0#1 0#2 (BitVec.ofNat 7 n) opc) make = .instr (make n) := by
  simp [decodeWidth, Nat.mod_eq_of_lt hn]

theorem decode_encodeCmd (data : Data) (h : i.WellFormed) : decode (encodeCmd i) data = .instr (i.withData data) := by
  cases i with
  | openCmd tier endian => simp [decode, encodeCmd, decodeOpen, Instr.withData]
  | read n => simp [decode, encodeCmd, decodeWidth_packCmd h, Instr.withData]
  | peek n => simp [decode, encodeCmd, decodeWidth_packCmd h, Instr.withData]
  | readu n => simp [decode, encodeCmd, decodeWidth_packCmd h, Instr.withData]
  | write n d => simp [decode, encodeCmd, decodeWidth_packCmd h, Instr.withData]
  | flush => simp [decode, encodeCmd, decodeBare, Instr.withData]
  | avail => simp [decode, encodeCmd, decodeBare, Instr.withData]
  | close => simp [decode, encodeCmd, decodeBare, Instr.withData]
  | discard => simp [decode, encodeCmd, decodeBare, Instr.withData]

/-- Settles O10: with its own data operand an instruction is decoded as it is. -/
theorem decodeOfEncode : Obligations.DecodeOfEncode := by
  intro i h
  rw [decode_encodeCmd _ h, Instr.withData_encodeData]

/-! ### Encoding what a word decodes to (R79) -/

/-- `cmd` is the word of the instruction `i`, which is well formed. -/
structure Spells (cmd : CmdWord) (i : Instr) : Prop where
  encodeCmd_eq : encodeCmd i = cmd
  wellFormed : i.WellFormed

theorem Spells.decode_eq (h : Spells cmd i) : decode cmd data = .instr (i.withData data) := by
  rw [← h.encodeCmd_eq, decode_encodeCmd data h.wellFormed]

section
variable {opc : BitVec 4} (hr : rsvOf cmd = 0#2) (ho : opcOf cmd = opc)
include hr ho

theorem spells_of_decodeOpen (hopen : opc = 0x1#4) (h : decodeOpen cmd = .instr i) : Spells cmd i := by
  unfold decodeOpen at h
  split at h
  · cases h
  · rename_i hn
    cases h
    refine ⟨?_, trivial⟩
    rw [encodeCmd, endianBit_endianOfBit, tierBits_tierOfBits, ← not_ne_iff.mp hn, ← hopen, ← ho, packCmd_fields hr]

theorem spells_of_decodeWidth {make : Nat → Instr} (hmake : ∀ n, encodeCmd (make n) = packCmd 0#1 0#2 (BitVec.ofNat 7 n) opc)
    (hwf : ∀ n < 128, (make n).WellFormed) (h : decodeWidth cmd make = .instr i) : Spells cmd i := by
  unfold decodeWidth at h
  split at h
  · cases h
  · rename_i hfields
    cases h
    obtain ⟨ht, he⟩ := not_or.mp hfields
    refine ⟨?_, hwf _ (nOf cmd).isLt⟩
    rw [hmake, BitVec.ofNat_toNat, BitVec.setWidth_eq, ← not_ne_iff.mp ht, ← not_ne_iff.mp he, ← ho, packCmd_fields hr]

theorem spells_of_decodeBare {j : Instr} (hj : encodeCmd j = packCmd 0#1 0#2 0#7 opc) (hwf : j.WellFormed)
    (h : decodeBare cmd j = .instr i) : Spells cmd i := by
  unfold decodeBare at h
  split at h
  · cases h
  · rename_i hfields
    cases h
    simp only [not_or, not_ne_iff] at hfields
    obtain ⟨hn, ht, he⟩ := hfields
    refine ⟨?_, hwf⟩
    rw [hj, ← hn, ← ht, ← he, ← ho, packCmd_fields hr]

end

theorem spells_of_decode (h : decode cmd data = .instr i) : Spells cmd i := by
  unfold decode at h
  split at h
  · cases h
  · rename_i hrsv
    have hr := not_ne_iff.mp hrsv
    have ho : ∀ {k : Nat}, (opcOf cmd).toNat = k → opcOf cmd = BitVec.ofNat 4 k := fun hk => by simp [← hk]
    split at h
    case h_1 hk => exact spells_of_decodeOpen hr (ho hk) rfl h
    case h_2 hk => exact spells_of_decodeWidth hr (ho hk) (fun _ => rfl) (fun _ => id) h
    case h_3 hk => exact spells_of_decodeWidth hr (ho hk) (fun _ => rfl) (fun _ => id) h
    case h_4 hk => exact spells_of_decodeWidth hr (ho hk) (fun _ => rfl) (fun _ => id) h
    case h_5 hk => exact spells_of_decodeWidth hr (ho hk) (fun _ => rfl) (fun _ => id) h
    case h_6 hk => exact spells_of_decodeBare hr (ho hk) rfl trivial h
    case h_7 hk => exact spells_of_decodeBare hr (ho hk) rfl trivial h
    case h_8 hk => exact spells_of_decodeBare hr (ho hk) rfl trivial h
    case h_9 hk => exact spells_of_decodeBare hr (ho hk) rfl trivial h
    case h_10 => cases h

/-- Settles O11: a word that decodes to an instruction spells it. -/
theorem encodeOfDecode : Obligations.EncodeOfDecode := fun _ _ _ h =>
  have hs := spells_of_decode h
  ⟨hs.encodeCmd_eq, hs.wellFormed⟩

/-! ### Words that are no command (R75, R76, R78) -/

/-- A reserved bit, a reserved opcode, or a nonzero field that the opcode does not use. -/
def Malformed (cmd : CmdWord) : Prop :=
  rsvOf cmd ≠ 0#2 ∨
  (opcOf cmd = 0x0#4 ∨ opcOf cmd ≥ 0xA#4) ∨
  (opcOf cmd = 0x1#4 ∧ nOf cmd ≠ 0#7) ∨
  ((opcOf cmd = 0x2#4 ∨ opcOf cmd = 0x3#4 ∨ opcOf cmd = 0x4#4 ∨ opcOf cmd = 0x5#4) ∧ (tierBitsOf cmd ≠ 0#2 ∨ endBitOf cmd ≠ 0#1)) ∨
  ((opcOf cmd = 0x6#4 ∨ opcOf cmd = 0x7#4 ∨ opcOf cmd = 0x8#4 ∨ opcOf cmd = 0x9#4) ∧
    (nOf cmd ≠ 0#7 ∨ tierBitsOf cmd ≠ 0#2 ∨ endBitOf cmd ≠ 0#1))

theorem encodeCmd_not_malformed (i : Instr) : ¬ Malformed (encodeCmd i) := by
  cases i <;> simp [Malformed, encodeCmd]

/-- A malformed word decodes to no instruction, since it would be that instruction's word. -/
theorem Malformed.decode_illegal (h : Malformed cmd) : ∃ why, decode cmd data = .illegal why := by
  cases hd : decode cmd data with
  | instr i => exact absurd ((spells_of_decode hd).encodeCmd_eq ▸ h) (encodeCmd_not_malformed i)
  | illegal why => exact ⟨why, rfl⟩

/-- Settles O8: the word decodes to no instruction, so the step only answers. -/
theorem malformedWordIsIllegal : Obligations.MalformedWordIsIllegal := by
  intro s cmd data hu hm h
  obtain ⟨why, hd⟩ := Malformed.decode_illegal (data := data) h
  rw [Machine.step_of_nextMove_command hu hm, Machine.issue_of_decode_illegal hd]
  rfl

/-! ### The opcode map (R85) -/

theorem rowSelects_rowOf_encodeCmd (i : Instr) : rowSelects (rowOf i) (encodeCmd i) = true := by
  have hrow : Laws.TableRow.Statement i := by
    cases i with
    | openCmd tier endian => exact Laws.TableRow.openCmd tier endian
    | read n => exact Laws.TableRow.read n
    | peek n => exact Laws.TableRow.peek n
    | readu n => exact Laws.TableRow.readu n
    | write n d => exact Laws.TableRow.write n d
    | flush => exact Laws.TableRow.flush
    | avail => exact Laws.TableRow.avail
    | close => exact Laws.TableRow.close
    | discard => exact Laws.TableRow.discard
  obtain ⟨hselects, -⟩ := hrow
  exact hselects

/-- A field that a mask covers whole is the field of what the mask leaves. -/
theorem extractLsb'_eq_of_and_eq {w k lo : Nat} {x m v : BitVec w} (h : x &&& m = v) (hm : m.extractLsb' lo k = BitVec.allOnes k) :
    x.extractLsb' lo k = v.extractLsb' lo k := by
  rw [← h, BitVec.extractLsb'_and, hm, BitVec.and_allOnes]

/-- The mask of OPEN leaves open only `TIER` and `END`. -/
theorem packCmd_of_open_mask (h : cmd &&& 0xC7FF#16 = 0x0001#16) : packCmd (endBitOf cmd) (tierBitsOf cmd) 0#7 0x1#4 = cmd := by
  have hr : rsvOf cmd = 0#2 := extractLsb'_eq_of_and_eq h rfl
  have hn : nOf cmd = 0#7 := extractLsb'_eq_of_and_eq h rfl
  have ho : opcOf cmd = 0x1#4 := extractLsb'_eq_of_and_eq h rfl
  rw [← hn, ← ho, packCmd_fields hr]

/-- The mask of READ, PEEK, READU and WRITE leaves open only `N`. -/
theorem packCmd_of_width_mask {opc : BitVec 4} (h : cmd &&& 0xF80F#16 = packCmd 0#1 0#2 0#7 opc) : packCmd 0#1 0#2 (nOf cmd) opc = cmd := by
  have hr : rsvOf cmd = 0#2 := (extractLsb'_eq_of_and_eq h rfl).trans (rsvOf_packCmd ..)
  have he : endBitOf cmd = 0#1 := (extractLsb'_eq_of_and_eq h rfl).trans (endBitOf_packCmd ..)
  have ht : tierBitsOf cmd = 0#2 := (extractLsb'_eq_of_and_eq h rfl).trans (tierBitsOf_packCmd ..)
  have ho : opcOf cmd = opc := (extractLsb'_eq_of_and_eq h rfl).trans (opcOf_packCmd ..)
  rw [← he, ← ht, ← ho, packCmd_fields hr]

theorem spells_of_width_mask {opc : BitVec 4} {make : Nat → Instr} (hmake : ∀ n, encodeCmd (make n) = packCmd 0#1 0#2 (BitVec.ofNat 7 n) opc)
    (hwf : ∀ n < 128, (make n).WellFormed) (h : cmd &&& 0xF80F#16 = packCmd 0#1 0#2 0#7 opc) : Spells cmd (make (nOf cmd).toNat) := by
  refine ⟨?_, hwf _ (nOf cmd).isLt⟩
  rw [hmake, BitVec.ofNat_toNat, BitVec.setWidth_eq, packCmd_of_width_mask h]

/-- The mask of the commands without operands leaves nothing open. -/
theorem spells_of_full_mask (hwf : i.WellFormed) (h : cmd &&& 0xFFFF#16 = encodeCmd i) : Spells cmd i :=
  ⟨h.symm.trans BitVec.and_allOnes, hwf⟩

/-- A word that a row selects is the word of an instruction of that row. -/
theorem exists_spells_of_rowSelects {row : CmdWord × CmdWord} (hrow : row ∈ opcodeRows) (h : rowSelects row cmd = true) :
    ∃ i, Spells cmd i ∧ rowOf i = row := by
  have hmask : cmd &&& row.2 = row.1 := by simpa [rowSelects] using h
  simp only [opcodeRows, List.mem_cons, List.not_mem_nil, or_false] at hrow
  rcases hrow with rfl | rfl | rfl | rfl | rfl | rfl | rfl | rfl | rfl
  · refine ⟨.openCmd (tierOfBits (tierBitsOf cmd)) (endianOfBit (endBitOf cmd)), ⟨?_, trivial⟩, rfl⟩
    rw [encodeCmd, tierBits_tierOfBits, endianBit_endianOfBit, packCmd_of_open_mask hmask]
  · exact ⟨_, spells_of_width_mask (make := .read) (fun _ => rfl) (fun _ => id) hmask, rfl⟩
  · exact ⟨_, spells_of_width_mask (make := .peek) (fun _ => rfl) (fun _ => id) hmask, rfl⟩
  · exact ⟨_, spells_of_width_mask (make := .readu) (fun _ => rfl) (fun _ => id) hmask, rfl⟩
  · exact ⟨_, spells_of_width_mask (make := fun n => .write n 0#64) (fun _ => rfl) (fun _ => id) hmask, rfl⟩
  · exact ⟨.flush, spells_of_full_mask trivial hmask, rfl⟩
  · exact ⟨.avail, spells_of_full_mask trivial hmask, rfl⟩
  · exact ⟨.close, spells_of_full_mask trivial hmask, rfl⟩
  · exact ⟨.discard, spells_of_full_mask trivial hmask, rfl⟩

/-- Of the rows of the map, the one of the decoded instruction selects the word, and no other does. -/
theorem rowSelects_of_decode (hd : decode cmd data = .instr i) {row : CmdWord × CmdWord} (hrow : row ∈ opcodeRows) :
    rowSelects row cmd = true ↔ row = rowOf i := by
  constructor
  · intro h
    obtain ⟨j, hj, rfl⟩ := exists_spells_of_rowSelects hrow h
    rw [hj.decode_eq] at hd
    cases hd
    rw [rowOf_withData]
  · rintro rfl
    rw [← (spells_of_decode hd).encodeCmd_eq, rowSelects_rowOf_encodeCmd]

theorem opcodeRows_filter_eq_rowOf (i : Instr) : opcodeRows.filter (· = rowOf i) = [rowOf i] := by
  cases i <;> rfl

/-- Settles O9: the map's filter for the word is its filter for the row of the decoded instruction. -/
theorem opcodeMapSelectsCommands : Obligations.OpcodeMapSelectsCommands := by
  refine fun cmd data => ⟨fun i hd => ?_, fun why hd => ?_⟩
  · rw [← opcodeRows_filter_eq_rowOf i]
    refine List.filter_congr fun row hrow => ?_
    exact Bool.eq_iff_iff.mpr ((rowSelects_of_decode hd hrow).trans decide_eq_true_iff.symm)
  · refine List.filter_eq_nil_iff.mpr fun row hrow h => ?_
    obtain ⟨j, hj, -⟩ := exists_spells_of_rowSelects hrow h
    rw [hj.decode_eq] at hd
    cases hd

/-! ### Who reads the data operand (R77) -/

/-- Only the arm of WRITE looks at the data operand. -/
theorem decode_data_irrelevant (h : opcOf cmd ≠ 0x5#4) (d d' : Data) : decode cmd d = decode cmd d' := by
  have h5 : (opcOf cmd).toNat ≠ 5 := fun hk => h (BitVec.eq_of_toNat_eq hk)
  unfold decode
  generalize (opcOf cmd).toNat = k at h5
  match k with
  | 5 => exact absurd rfl h5
  | 0 | 1 | 2 | 3 | 4 | 6 | 7 | 8 | 9 | k + 10 => rfl

/-- Settles O12, by running the decoder on each word. -/
theorem specWordsDecode : Obligations.SpecWordsDecode := by
  unfold Obligations.SpecWordsDecode
  decide

end Sys2Proof
end

section
/-! PROOFS. WRITE reads of its operand only the low bits (30_encoding R77), and lines of the assembler text (R82). -/

namespace Sys2Proof.Machine

/-- The field that WRITE deposits is made of the low bits of the operand alone. -/
theorem lowData_congr {n : Nat} {d d' : Data} (h : ∀ k < n, d.getLsbD k = d'.getLsbD k) : lowData d n = lowData d' n := by
  refine BitVec.eq_of_getLsbD_eq fun k _ => ?_
  rw [lowData_getLsbD, lowData_getLsbD]
  by_cases hk : k < n
  · rw [h k hk]
  · simp [hk]

theorem exec_write_congr {n : Nat} {d d' : Data} (s : State) (h : lowData d n = lowData d' n) :
    exec (.write n d) s = exec (.write n d') s := by
  have hput : s.engine.put d n = s.engine.put d' n := by rw [Engine.put_eq, Engine.put_eq, h]
  change execWrite n d s = execWrite n d' s
  unfold execWrite
  rw [hput]
  rfl

/-- Settles O15: WRITE sees its operand only through `lowData`, and no arm but that of WRITE sees it at all. -/
theorem onlyWriteReadsData : Obligations.OnlyWriteReadsData :=
  ⟨fun _ _ _ s h => exec_write_congr s (lowData_congr h), fun _ d d' h => decode_data_irrelevant h d d'⟩

/-- Settles O14, by running the assembler on each line. -/
theorem assemblerSpellsCommands : Obligations.AssemblerSpellsCommands := by
  unfold Obligations.AssemblerSpellsCommands
  decide

end Sys2Proof.Machine
end

section
/-! PROOFS. What the result of a response is (30_encoding R81). -/

namespace Sys2Proof.Machine

variable {s t : State} {n : Nat} {i : Instr} {e : Engine}

/-- The result that a response to the command `i` may hold, in the state with the engine `e`. -/
def ResultFits (i : Instr) (e : Engine) (r : Response) : Prop :=
  (r.status ≠ .ok → r.result = 0#64) ∧
    match i with
    | .read n => r.result.toNat < 2 ^ n
    | .peek n => r.result.toNat < 2 ^ n
    | .readu n => r.result.toNat < 2 ^ n
    | .avail => r.status = .ok → r.result.toNat = e.cnt.toNat
    | _ => r.result = 0#64

/-- A result of 0 fits every response but an OK one of AVAIL. -/
theorem resultFits_zero {st : Status} (h : st ≠ .ok ∨ i ≠ .avail) : ResultFits i e ⟨st, 0#64⟩ := by
  refine ⟨fun _ => rfl, ?_⟩
  cases i with
  | avail => exact fun hok => absurd hok (h.resolve_right (not_not_intro rfl))
  | _ => simp

/-- The state `t` is what some state became when it was answered with a response that fits. -/
def State.AnsweredFor (i : Instr) (e : Engine) (t : State) : Prop := ∃ u r, t = State.answered u r ∧ ResultFits i e r

theorem raise_answeredFor {st : Status} (hst : st ≠ .ok) (h : raise st s = .next t) : t.AnsweredFor i e :=
  ⟨s, ⟨st, 0#64⟩, respond_eq h, resultFits_zero (.inl hst)⟩

theorem respond_answeredFor (hi : i ≠ .avail) (h : respond .ok 0#64 s = .next t) : t.AnsweredFor i e :=
  ⟨s, ⟨.ok, 0#64⟩, respond_eq h, resultFits_zero (.inr hi)⟩

section
variable {c : State → Result} (hc : ∀ {u}, c u = .next t → t.AnsweredFor i e)
include hc

theorem afterFill_answeredFor {f : Fill} (h : afterFill f c = .next t) : t.AnsweredFor i e := by
  obtain ⟨u, -, hu⟩ | ⟨u, -, rfl⟩ | ⟨u, -, rfl⟩ := afterFill_next h
  · exact hc hu
  · exact ⟨_, _, rfl, resultFits_zero (.inl (by decide))⟩
  · exact ⟨_, _, rfl, resultFits_zero (.inl (by decide))⟩

theorem afterUncheckedFill_answeredFor {f : Fill} (h : afterUncheckedFill f c = .next t) : t.AnsweredFor i e := by
  obtain ⟨u, -, hu⟩ | ⟨u, -, rfl⟩ := afterUncheckedFill_next h
  · exact hc hu
  · exact ⟨_, _, rfl, resultFits_zero (.inl (by decide))⟩

theorem afterDrain_answeredFor {f : Drain} (h : afterDrain f c = .next t) : t.AnsweredFor i e := by
  obtain ⟨u, -, hu⟩ | ⟨u, -, rfl⟩ := afterDrain_next h
  · exact hc hu
  · exact ⟨_, _, rfl, resultFits_zero (.inl (by decide))⟩

end

theorem execRead_answeredFor (h : execRead n s = .next t) : t.AnsweredFor (.read n) e := by
  unfold execRead at h
  split_ifs at h
  · exact raise_answeredFor (by decide) h
  · exact raise_answeredFor (by decide) h
  · refine afterFill_answeredFor (fun {u} hu => ?_) h
    obtain ⟨-, rfl⟩ := takeField_next hu
    exact ⟨_, _, rfl, by simp, u.engine.oldest_lt n⟩

theorem execPeek_answeredFor (h : execPeek n s = .next t) : t.AnsweredFor (.peek n) e := by
  unfold execPeek at h
  split_ifs at h
  · exact raise_answeredFor (by decide) h
  · exact raise_answeredFor (by decide) h
  · refine afterFill_answeredFor (fun {u} hu => ?_) h
    obtain ⟨-, rfl⟩ := lookField_next hu
    exact ⟨_, _, rfl, by simp, u.engine.oldest_lt n⟩

theorem execReadu_answeredFor (h : execReadu n s = .next t) : t.AnsweredFor (.readu n) e := by
  unfold execReadu at h
  split_ifs at h
  · exact raise_answeredFor (by decide) h
  · cases h
  · refine afterUncheckedFill_answeredFor (fun {u} hu => ?_) h
    obtain ⟨-, rfl⟩ := takeField_next hu
    exact ⟨_, _, rfl, by simp, u.engine.oldest_lt n⟩

theorem execWrite_answeredFor {data : Data} (h : execWrite n data s = .next t) : t.AnsweredFor (.write n data) e := by
  unfold execWrite at h
  split_ifs at h
  · exact raise_answeredFor (by decide) h
  · exact raise_answeredFor (by decide) h
  · split at h
    · exact raise_answeredFor (by decide) h
    · exact afterDrain_answeredFor (respond_answeredFor (by simp)) h

/-- AVAIL answers the count, in 64 bits (44_control R230). -/
theorem execAvail_answeredFor (h : execAvail s = .next t) : t.AnsweredFor .avail s.engine := by
  unfold execAvail at h
  split_ifs at h
  · exact raise_answeredFor (by decide) h
  · exact ⟨_, _, respond_eq h, by simp, fun _ => BitVec.toNat_setWidth_of_le (by decide)⟩

theorem exec_answeredFor (h : exec i s = .next t) : t.AnsweredFor i s.engine := by
  by_cases hl : LegalIn i s.engine
  · cases i with
    | openCmd tier endian =>
      rw [exec_openCmd hl] at h
      exact respond_answeredFor (by simp) h
    | read n => exact execRead_answeredFor h
    | peek n => exact execPeek_answeredFor h
    | readu n => exact execReadu_answeredFor h
    | write n data => exact execWrite_answeredFor h
    | flush =>
      rw [exec_flush hl] at h
      exact afterDrain_answeredFor (respond_answeredFor (by simp)) h
    | avail => exact execAvail_answeredFor h
    | close =>
      rw [exec_close hl] at h
      split at h
      · exact afterDrain_answeredFor (respond_answeredFor (by simp)) h
      · exact respond_answeredFor (by simp) h
    | discard =>
      rw [exec_discard hl] at h
      exact respond_answeredFor (by simp) h
  · rw [exec_illegal hl] at h
    exact raise_answeredFor (st := .illegalCommand) (by decide) h

/-- Settles O49: the one response the host has more is the one whose result fits. -/
theorem oneResponseWithItsResult : Obligations.OneResponseWithItsResult := by
  intro i s t h
  obtain ⟨r, hhost, -⟩ := exec_next_host h
  obtain ⟨u, r', rfl, hstatus, hresult⟩ := exec_answeredFor h
  have hr : r' = r := by
    have hlast := congrArg (fun a => a.responses.getLast?) hhost
    simpa using hlast
  subst hr
  refine ⟨r', hhost, hstatus, ?_⟩
  cases i <;> exact hresult

end Sys2Proof.Machine
end

section
/-! PROOFS. A command whose port transactions are all answered is answered itself (20_memory R56). -/

namespace Sys2Proof.Machine

variable {s u : State} {n k : Nat}

/-! ### Refills -/

theorem Source.answers_add (j k : Nat) (q : Source) : q.answers (j + k) = q.answers j ++ (q.after j).answers k := by
  induction j generalizing q with
  | zero => simp [Source.answers, Source.after]
  | succ j ih => rw [Nat.succ_add, Source.answers, Source.answers, ih, List.cons_append, Source.after]

/-- The answers to `k` pulls that come after `j` others are among the answers to any `m` pulls that hold them all. -/
theorem Source.mem_answers_of_after {q : Source} {j m : Nat} {a : SourceAnswer} (hm : j + k ≤ m) (ha : a ∈ (q.after j).answers k) :
    a ∈ q.answers m := by
  obtain ⟨l, rfl⟩ := Nat.exists_eq_add_of_le hm
  rw [Source.answers_add, Source.answers_add]
  simp [ha]

theorem Source.answers_subset {q : Source} {m : Nat} (hm : k ≤ m) : q.answers k ⊆ q.answers m := fun _ ha =>
  Source.mem_answers_of_after (j := 0) (by omega) ha

theorem fillBytes_ne_never (h : ∀ a ∈ s.source.answers k, a ≠ .never) : fillBytes k s ≠ .never := by
  induction k generalizing s with
  | zero => simp [fillBytes]
  | succ k ih =>
    obtain ⟨hfirst, hrest⟩ := List.forall_mem_cons.mp h
    simp only [fillBytes]
    split
    · split
      · exact ih hrest
      · simp
    · simp
    · exact absurd ‹_› hfirst

/-- A refill that ends, and that holds the whole request of `n` bits if it is done (41_reader R132). -/
def Fill.Serves (n : Nat) (f : Fill) : Prop := f ≠ .never ∧ ∀ u, f = .done u → n ≤ u.engine.count

theorem stdFill_serves (ha : s.engine.AccOk) (hn : n ≤ 64) (h : ∀ a ∈ s.source.answers 9, a ≠ .never) : (stdFill n s).Serves n := by
  have hneed := s.engine.need_le_eight hn
  refine ⟨fillBytes_ne_never fun a hm => h a (Source.answers_subset (by omega) hm), fun u hu => ?_⟩
  have hcount := stdFill_done_count hn hu
  obtain ⟨-, hcover⟩ := Engine.need_bounds ha hn
  omega

/-- The optional pulls end too, and take no bit away. -/
theorem optionalFill_serves (ha : u.engine.AccOk) (hn : n ≤ u.engine.count)
    (h : ∀ a ∈ u.source.answers u.prefetchCount, a ≠ .never) : (optionalFill u).Serves n := by
  have hroom : u.engine.count + 8 * u.prefetchCount ≤ cntMax := by
    have hcount := ha.1
    unfold State.prefetchCount State.prefetchBound; omega
  obtain ⟨e, j, he, -, -, hcount, -⟩ := prefetchBytes_spec (s := { u with prefetch := u.prefetch.drawn }) ha hroom h
  rw [optionalFill, he]
  refine ⟨by simp, fun v hv => ?_⟩
  cases hv
  change n ≤ e.count
  change e.count = u.engine.count + _ at hcount
  omega

theorem bulkFill_serves (ha : s.engine.AccOk) (hn : n ≤ 64) (h : ∀ a ∈ s.source.answers 9, a ≠ .never) : (bulkFill n s).Serves n := by
  obtain ⟨hnever, hdone⟩ := stdFill_serves ha hn h
  unfold bulkFill
  cases hf : stdFill n s with
  | done u =>
    simp only
    split
    · have hcount := stdFill_done_count hn hf
      have hstate : (stdFill n s).state = some u := congrArg Fill.state hf
      have hok : u.engine.AccOk := (stdFill_keeps hstate).accOk ha
      obtain ⟨j, hj, hsource⟩ := fillBytes_source hstate
      refine optionalFill_serves hok (hdone u hf) fun a hm => h a ?_
      rw [hsource] at hm
      refine Source.mem_answers_of_after ?_ hm
      have hle : u.engine.count ≤ 71 := hok.1
      unfold State.prefetchCount State.prefetchBound cntMax
      omega
    · exact ⟨by simp, fun v hv => by cases hv; exact hdone u hf⟩
  | eos u => exact ⟨by simp, by simp⟩
  | overflow u => exact ⟨by simp, by simp⟩
  | never => exact absurd hf hnever

theorem readerFill_serves (ha : s.engine.AccOk) (hn : n ≤ 64) (h : ∀ a ∈ s.source.answers 9, a ≠ .never) : (readerFill n s).Serves n := by
  unfold readerFill
  split
  · exact stdFill_serves ha hn h
  · exact bulkFill_serves ha hn h

theorem afterFill_answers {f : Fill} {c : State → Result} (hf : f.Serves n) (hc : ∀ u : State, n ≤ u.engine.count → ∃ t, c u = .next t) :
    ∃ t, afterFill f c = .next t := by
  obtain ⟨hnever, hdone⟩ := hf
  cases f with
  | done u => exact hc u (hdone u rfl)
  | eos u => exact ⟨_, rfl⟩
  | overflow u => exact ⟨_, rfl⟩
  | never => exact absurd rfl hnever

/-! ### Drains -/

/-- A drain or a flush that ends, done or refused. -/
def Drain.Ends (d : Drain) : Prop := ∃ u, d = .done u ∨ d = .refused u

theorem Sink.answers_succ (k : Nat) (q : Sink) (b : Byte) : q.answers (k + 1) = q.answer :: (q.offered b).answers k :=
  congrArg (q.answer :: ·) (Sink.answers_congr rfl rfl rfl rfl)

theorem Sink.answers_add (bs : List Byte) (k : Nat) (q : Sink) :
    q.answers (bs.length + k) = q.answers bs.length ++ (q.offeredAll bs).answers k := by
  induction bs generalizing q with
  | nil => simp [Sink.answers, Sink.offeredAll]
  | cons b bs ih =>
    rw [List.length_cons, Nat.succ_add, Sink.answers_succ _ q b, Sink.answers_succ _ q b, ih, List.cons_append, Sink.offeredAll]

theorem drainBytes_ends (ha : s.engine.AccOk) (hk : 8 * k ≤ s.engine.count) (h : ∀ a ∈ s.sink.answers k, a ≠ .never) :
    (drainBytes k s).Ends := by
  induction k generalizing s with
  | zero => exact ⟨s, .inl rfl⟩
  | succ k ih =>
    obtain ⟨b, f, hbf, -, hcount, hok, -⟩ := Engine.drainByte_some ha (by omega)
    rw [Sink.answers_succ k s.sink b] at h
    obtain ⟨hfirst, hrest⟩ := List.forall_mem_cons.mp h
    simp only [drainBytes, hbf]
    split
    · exact ih (s := (s.offered b).withEngine f) hok (by simp only [State.withEngine_engine]; omega) hrest
    · exact ⟨_, .inr rfl⟩
    · exact absurd ‹_› hfirst

theorem drainAll_ends (ha : s.engine.AccOk) (h : ∀ a ∈ s.sink.answers 9, a ≠ .never) : (drainAll s).Ends := by
  have hcount : s.engine.count ≤ 71 := ha.1
  refine drainBytes_ends ha (Nat.mul_div_le _ _) fun a hm => h a ?_
  rw [← Sink.answers_take s.sink (show s.engine.count / 8 ≤ 9 by omega)] at hm
  exact List.mem_of_mem_take hm

/-- The pad of less than a full byte. -/
theorem padOut_ends (hlt : s.engine.count < 8) (h : s.sink.answer ≠ .never) : (padOut s).Ends := by
  unfold padOut
  split
  · have hpad : ¬ (s.engine.count = 0 ∨ s.engine.count ≥ 8) := by omega
    simp only [Engine.padByte, if_neg hpad]
    split
    · exact ⟨_, .inl rfl⟩
    · exact ⟨_, .inr rfl⟩
    · exact absurd ‹_› h
  · exact ⟨s, .inl rfl⟩

theorem flushAll_ends (ha : s.engine.AccOk) (h : ∀ a ∈ s.sink.answers 9, a ≠ .never) : (flushAll s).Ends := by
  unfold flushAll
  obtain ⟨u, hu | hu⟩ := drainAll_ends ha h
  · have hmax : s.engine.count ≤ 71 := ha.1
    have hcount : u.engine.count + 8 * (s.engine.count / 8) = s.engine.count := drainBytes_done_count hu
    obtain ⟨bs, hlen, hsink⟩ := drainBytes_sink (t := u) (congrArg Drain.state hu)
    have hmem : u.sink.answer ∈ s.sink.answers 9 := by
      obtain ⟨m, hm⟩ := Nat.exists_eq_add_of_le (show bs.length + 1 ≤ 9 by omega)
      rw [hm, Nat.add_assoc, Sink.answers_add, ← hsink, Nat.add_comm 1 m]
      exact List.mem_append_right _ List.mem_cons_self
    simp only [hu]
    exact padOut_ends (by omega) (h _ hmem)
  · simp only [hu]
    exact ⟨u, .inr rfl⟩

theorem afterDrain_answers {d : Drain} {c : State → Result} (hd : d.Ends) (hc : ∀ u, ∃ t, c u = .next t) : ∃ t, afterDrain d c = .next t := by
  obtain ⟨u, rfl | rfl⟩ := hd
  · exact hc u
  · exact ⟨_, rfl⟩

/-! ### Commands -/

theorem validatedRead_answers {c : State → Result} (ha : s.engine.AccOk) (h : ∀ a ∈ s.source.answers 9, a ≠ .never)
    (hc : ∀ u : State, n ≤ u.engine.count → ∃ t, c u = .next t) :
    ∃ t, (if !validWidth n then raise .invalidWidth s else afterFill (readerFill n s) c) = .next t := by
  split
  · exact ⟨_, rfl⟩
  · rename_i hw
    obtain ⟨-, hn⟩ := (validWidth_iff n).mp (by simpa using hw)
    exact afterFill_answers (readerFill_serves ha hn h) hc

/-- A READU whose preconditions P1 and P2 hold (42_fast_reader R161). -/
theorem exec_readu_answers (hl : LegalIn (.readu n) s.engine) (ha : s.engine.AccOk) (h1 : 1 ≤ n) (hn : n ≤ 64)
    (h : ∀ a ∈ s.source.answers (s.engine.need n), ∃ b, a = .byte b) : ∃ t, exec (.readu n) s = .next t := by
  obtain ⟨bs, hbs⟩ : s.source.answers (s.engine.need n) ∈ Set.range (List.map SourceAnswer.byte) := by
    rw [Set.range_list_map]
    intro a hm
    obtain ⟨b, hb⟩ := h a hm
    exact ⟨b, hb.symm⟩
  obtain ⟨e, hfill, -, -, hcount, -⟩ := stdFill_bytes ha hn hbs.symm
  rw [exec_readu hl h1 hn, hfill]
  exact ⟨_, takeField_eq hcount⟩

theorem execWrite_answers {data : Data} (ha : s.engine.AccOk) (h : ∀ a ∈ s.sink.answers 9, a ≠ .never) :
    ∃ t, execWrite n data s = .next t := by
  unfold execWrite
  split_ifs
  · exact ⟨_, rfl⟩
  · exact ⟨_, rfl⟩
  · split
    · exact ⟨_, rfl⟩
    · rename_i e he
      exact afterDrain_answers (drainAll_ends (s := s.withEngine e) ((Engine.put_keeps he).accOk ha) h) fun u => ⟨_, rfl⟩

/-- Settles O55: every refill and every drain ends, and what follows it answers. -/
theorem everyCommandIsAnswered : Obligations.EveryCommandIsAnswered := by
  intro i s ha hsource hsink hreadu
  by_cases hl : LegalIn i s.engine
  · have hlegal := (legal_iff i s.engine).mpr hl
    cases i with
    | openCmd tier endian => exact ⟨_, exec_openCmd hl⟩
    | read n =>
      simpa [exec, execRead, hlegal] using validatedRead_answers (n := n) ha hsource fun u hu => ⟨_, takeField_eq hu⟩
    | peek n =>
      simpa [exec, execPeek, hlegal] using validatedRead_answers (n := n) ha hsource fun u hu => ⟨_, lookField_eq hu⟩
    | readu n =>
      obtain ⟨h1, hn, hbytes⟩ := hreadu n rfl
      exact exec_readu_answers hl ha h1 hn hbytes
    | write n data => exact execWrite_answers ha hsink
    | flush =>
      rw [exec_flush hl]
      exact afterDrain_answers (flushAll_ends ha hsink) fun u => ⟨_, rfl⟩
    | avail => simp [exec, execAvail, hlegal, respond]
    | close =>
      rw [exec_close hl]
      split
      · exact afterDrain_answers (flushAll_ends ha hsink) fun u => ⟨_, rfl⟩
      · exact ⟨_, rfl⟩
    | discard => exact ⟨_, exec_discard hl⟩
  · exact ⟨_, exec_illegal hl⟩

end Sys2Proof.Machine
end

section
/-! PROOFS. The accumulator's primitives, for every value the registers can hold: when each fails (40_accumulator R101 to R107), and what each
does to the window read as a queue of bits (R110). -/

namespace Sys2Proof.Machine

variable {e f : Engine}

/-! ### When each primitive fails -/

theorem Engine.refill_eq_none_iff (e : Engine) (b : Byte) : e.refill b = none ↔ 63 < e.count := by
  simp [Engine.refill_eq, cntMax]

theorem Engine.take_eq_none_iff (e : Engine) (n : Nat) : e.take n = none ↔ e.count < n := by
  simp [Engine.take_eq]

theorem Engine.look_eq_none_iff (e : Engine) (n : Nat) : e.look n = none ↔ e.count < n := by
  simp [Engine.look]

theorem Engine.put_eq_none_iff (e : Engine) (v : Data) (n : Nat) : e.put v n = none ↔ 71 < e.count + n := by
  simp [Engine.put_eq, cntMax]

theorem Engine.frontByte_eq_none_iff (e : Engine) : e.frontByte = none ↔ e.count < 8 := by
  simp [Engine.frontByte]

theorem Engine.dropByte_eq_none_iff (e : Engine) : e.dropByte = none ↔ e.count < 8 := by
  simp [Engine.dropByte]

theorem Engine.padByte_eq_none_iff (e : Engine) : e.padByte = none ↔ e.count = 0 ∨ 8 ≤ e.count := by
  simp [Engine.padByte]; omega

/-- Settles O23, primitive by primitive. -/
theorem primitivePreconditions : Obligations.PrimitivePreconditions := fun e b v n =>
  ⟨e.refill_eq_none_iff b, e.take_eq_none_iff n, e.look_eq_none_iff n, e.put_eq_none_iff v n, e.frontByte_eq_none_iff,
    e.dropByte_eq_none_iff, e.padByte_eq_none_iff⟩

/-! ### What each primitive does to the window -/

/-- The field that `take` and `look` return is the head of the queue, and dropping it leaves the tail. -/
theorem Engine.oldest_window {n : Nat} (ha : e.AccOk) (hn : n ≤ 64) (h : n ≤ e.count) :
    fieldBits e.endian n (e.oldest n) = e.window.take n ∧ (e.dropOldest n).window = e.window.drop n := by
  rw [Engine.oldest_spec ha hn h]
  exact ⟨(List.take_left' (by simp)).symm, (List.drop_left' (by simp)).symm⟩

theorem Engine.take_window {n : Nat} {v : Data} (ha : e.AccOk) (hn : n ≤ 64) (h : e.take n = some (v, f)) :
    fieldBits e.endian n v = e.window.take n ∧ f.window = e.window.drop n := by
  rw [Engine.take_eq] at h
  split at h
  · cases h
  · cases h
    exact Engine.oldest_window ha hn (by omega)

theorem Engine.look_window {n : Nat} {v : Data} (ha : e.AccOk) (hn : n ≤ 64) (h : e.look n = some v) :
    fieldBits e.endian n v = e.window.take n := by
  unfold Engine.look at h
  split at h
  · cases h
  · cases h
    exact (Engine.oldest_window ha hn (by omega)).1

theorem Engine.drainByte_window {b : Byte} (ha : e.AccOk) (h : e.drainByte = some (b, f)) :
    byteBits e.endian b = e.window.take 8 ∧ f.window = e.window.drop 8 := by
  obtain ⟨hwindow, -⟩ := Engine.drainByte_spec ha h
  rw [hwindow]
  exact ⟨(List.take_left' (by simp)).symm, (List.drop_left' (by simp)).symm⟩

/-- Settles O22, primitive by primitive; the `mod` in the clause of `put` is that only the low bits of a value are its field. -/
theorem accumulatorIsFifoQueue : Obligations.AccumulatorIsFifoQueue := by
  intro e ha
  refine ⟨fun b f h => (Engine.refill_spec ha h).1, fun n v f _ hn h => Engine.take_window ha hn h,
    fun n v _ hn h => Engine.look_window ha hn h, fun n v f _ _ h => ?_, fun b f h => Engine.drainByte_window ha h,
    fun b h => (Engine.padByte_spec ha h).1, e.clear_window⟩
  rw [fieldBits_ofNat_mod]
  exact (Engine.put_spec ha h).1

end Sys2Proof.Machine
end

section
/-! PROOFS. The tiers keep the primitives' preconditions (40_accumulator R112), whatever the registers held before the command: so every command
but READU is answered, or waits for a port that never answers (20_memory R56). -/

namespace Sys2Proof.Machine

variable {s t : State} {n k : Nat}

/-! ### A refill that is done covers the request -/

theorem Engine.refill_count {e f : Engine} {b : Byte} (h : e.refill b = some f) : f.count = e.count + 8 := by
  rw [Engine.refill_eq] at h
  split at h
  · cases h
  · cases h
    exact Engine.insert_count (by omega)

theorem fillBytes_count_le (h : (fillBytes k s).state = some t) : s.engine.count ≤ t.engine.count := by
  induction k generalizing s with
  | zero => cases h; exact Nat.le_refl _
  | succ k ih =>
    simp only [fillBytes] at h
    split at h
    · split at h
      · rename_i e he
        have hcount := Engine.refill_count he
        have hrest : e.count ≤ t.engine.count := ih h
        omega
      · cases h; exact Nat.le_refl _
    · cases h; exact Nat.le_refl _
    · cases h

theorem optionalFill_count_le (h : (optionalFill s).state = some t) : s.engine.count ≤ t.engine.count := by
  rw [optionalFill, prefetchBytes_state] at h
  exact fillBytes_count_le (s := { s with prefetch := s.prefetch.drawn }) h

/-- The mandatory bytes cover the request, whatever the count is (41_reader R132). -/
theorem Engine.need_covers (e : Engine) (n : Nat) : n ≤ e.count + 8 * e.need n := by
  unfold Engine.need ceilDiv
  split <;> omega

theorem stdFill_done_covers (hn : n ≤ 64) (h : stdFill n s = .done t) : n ≤ t.engine.count := by
  rw [stdFill_done_count hn h]
  exact s.engine.need_covers n

theorem bulkFill_done_covers (hn : n ≤ 64) (h : bulkFill n s = .done t) : n ≤ t.engine.count := by
  unfold bulkFill at h
  split at h
  · rename_i u hu
    have hcover := stdFill_done_covers hn hu
    split at h
    · exact hcover.trans (optionalFill_count_le (congrArg Fill.state h))
    · cases h; exact hcover
  all_goals cases h

theorem readerFill_done_covers (hn : n ≤ 64) (h : readerFill n s = .done t) : n ≤ t.engine.count := by
  unfold readerFill at h
  split at h
  · exact stdFill_done_covers hn h
  · exact bulkFill_done_covers hn h

/-! ### A drain and a flush call no primitive outside its precondition -/

theorem Engine.drainByte_eq {e : Engine} (h : 8 ≤ e.count) : ∃ b, e.drainByte = some (b, e.dropOldest 8) := by
  have hfull : ¬ e.count < 8 := by omega
  simp only [Engine.drainByte, Engine.frontByte, Engine.dropByte, if_neg hfull]
  exact ⟨_, rfl⟩

theorem drainBytes_ne_undefined (hk : 8 * k ≤ s.engine.count) : drainBytes k s ≠ .undefined t := by
  induction k generalizing s with
  | zero => simp [drainBytes]
  | succ k ih =>
    obtain ⟨b, hb⟩ := Engine.drainByte_eq (e := s.engine) (by omega)
    simp only [drainBytes, hb]
    split
    · refine ih ?_
      rw [State.withEngine_engine, Engine.dropOldest_count_eq]; omega
    · simp
    · simp

theorem drainAll_ne_undefined (s t : State) : drainAll s ≠ .undefined t := drainBytes_ne_undefined (Nat.mul_div_le _ _)

theorem drainAll_done_count (h : drainAll s = .done t) : t.engine.count < 8 := by
  have := drainBytes_done_count h; omega

theorem padOut_ne_undefined (hlt : s.engine.count < 8) : padOut s ≠ .undefined t := by
  unfold padOut
  split
  · split
    · split <;> simp
    · rename_i hpad
      rw [Engine.padByte_eq_none_iff] at hpad
      omega
  · simp

theorem flushAll_ne_undefined (s t : State) : flushAll s ≠ .undefined t := by
  unfold flushAll
  split
  · rename_i hu
    exact padOut_ne_undefined (drainAll_done_count hu)
  · simp
  · rename_i hu
    exact absurd hu (drainAll_ne_undefined _ _)
  · simp

/-! ### How a command ends -/

/-- The ends that are no `fault UNDEFINED` and no refusal: a next state, or a port that never answers (20_memory R56). -/
inductive Defined : Result → Prop
  | next (t : State) : Defined (.next t)
  | sourceNever : Defined (.fault .sourceNeverAnswers)
  | sinkNever : Defined (.fault .sinkNeverAnswers)

theorem Defined.ne_undefined {r : Result} (h : Defined r) (t : State) : r ≠ .fault (.undefined t) := by
  cases h <;> simp

theorem Defined.ne_refused {r : Result} (h : Defined r) (why : Refusal) : r ≠ .refused why := by
  cases h <;> simp

theorem respond_defined (st : Status) (v : Data) (s : State) : Defined (respond st v s) := .next _

theorem raise_defined (st : Status) (s : State) : Defined (raise st s) := .next _

theorem endLifetime_defined (s : State) : Defined (endLifetime s) := .next _

theorem takeField_defined (h : n ≤ s.engine.count) : Defined (takeField n s) := by
  rw [takeField_eq h]; exact .next _

theorem lookField_defined (h : n ≤ s.engine.count) : Defined (lookField n s) := by
  rw [lookField_eq h]; exact .next _

section
variable {c : State → Result}

theorem afterFill_defined {fill : Fill} (hc : ∀ u, fill = .done u → Defined (c u)) : Defined (afterFill fill c) := by
  cases fill with
  | done u => exact hc u rfl
  | eos u => exact raise_defined _ _
  | overflow u => exact raise_defined _ _
  | never => exact .sourceNever

theorem afterDrain_defined {drain : Drain} (hd : ∀ u, drain ≠ .undefined u) (hc : ∀ u, Defined (c u)) : Defined (afterDrain drain c) := by
  cases drain with
  | done u => exact hc u
  | refused u => exact raise_defined _ _
  | undefined u => exact absurd rfl (hd u)
  | never => exact .sinkNever

/-- READ and PEEK past their legality check. -/
theorem validatedRead_defined (hc : ∀ u : State, n ≤ u.engine.count → Defined (c u)) :
    Defined (if !validWidth n then raise .invalidWidth s else afterFill (readerFill n s) c) := by
  split
  · exact raise_defined _ _
  · rename_i hw
    obtain ⟨-, hn⟩ := (validWidth_iff n).mp (by simpa using hw)
    exact afterFill_defined fun u hu => hc u (readerFill_done_covers hn hu)

end

theorem execWrite_defined (n : Nat) (data : Data) (s : State) : Defined (execWrite n data s) := by
  unfold execWrite
  split_ifs
  · exact raise_defined _ _
  · exact raise_defined _ _
  · split
    · exact raise_defined _ _
    · exact afterDrain_defined (drainAll_ne_undefined _) (respond_defined _ _)

/-- READU is undefined where P1 or P2 is broken; past both, its refill covers what it takes (42_fast_reader R161, R162). -/
theorem execReadu_defined_or (n : Nat) (s : State) : Defined (execReadu n s) ∨ ∃ u, execReadu n s = faultUndefined u := by
  unfold execReadu
  split_ifs with _ hw
  · exact .inl (raise_defined _ _)
  · exact .inr ⟨s, rfl⟩
  · obtain ⟨-, hn⟩ := (validWidth_iff n).mp (by simpa using hw)
    cases hf : stdFill n s with
    | done u => exact .inl (takeField_defined (stdFill_done_covers hn hf))
    | eos u => exact .inr ⟨u, rfl⟩
    | overflow u => exact .inl (raise_defined _ _)
    | never => exact .inl .sourceNever

theorem exec_defined_or (i : Instr) (s : State) :
    Defined (exec i s) ∨ s.engine.Is .fast ∧ (∃ n, i = .readu n) ∧ ∃ u, exec i s = faultUndefined u := by
  by_cases hl : LegalIn i s.engine
  · have hlegal := (legal_iff i s.engine).mpr hl
    cases i with
    | openCmd tier endian => rw [exec_openCmd hl]; exact .inl (respond_defined _ _ _)
    | read n => exact .inl (by simpa [exec, execRead, hlegal] using validatedRead_defined (n := n) fun _ => takeField_defined)
    | peek n => exact .inl (by simpa [exec, execPeek, hlegal] using validatedRead_defined (n := n) fun _ => lookField_defined)
    | readu n => exact (execReadu_defined_or n s).imp_right fun hu => ⟨hl, ⟨n, rfl⟩, hu⟩
    | write n data => exact .inl (execWrite_defined n data s)
    | flush => rw [exec_flush hl]; exact .inl (afterDrain_defined (flushAll_ne_undefined s) (respond_defined _ _))
    | avail => exact .inl (by simpa [exec, execAvail, hlegal] using respond_defined _ _ s)
    | close =>
      rw [exec_close hl]
      split
      · exact .inl (afterDrain_defined (flushAll_ne_undefined s) endLifetime_defined)
      · exact .inl (endLifetime_defined s)
    | discard => rw [exec_discard hl]; exact .inl (endLifetime_defined s)
  · rw [exec_illegal hl]; exact .inl (.next _)

/-- Settles O54, by how a command ends: `fault UNDEFINED`, the one end that is not `Defined`, is READU's alone. -/
theorem onlyReaduIsUndefined : Obligations.OnlyReaduIsUndefined := by
  intro i s
  obtain h | ⟨hfast, hreadu, u, hu⟩ := exec_defined_or i s
  · exact ⟨fun t ht => absurd ht (h.ne_undefined t), h.ne_refused⟩
  · rw [hu]
    refine ⟨fun t ht => ?_, fun r => by simp [faultUndefined]⟩
    cases ht
    exact ⟨rfl, hfast, hreadu⟩

end Sys2Proof.Machine
end

section
/-! PROOFS. READ and PEEK in terms of their refill: what each answers once the refill is done or met an EOS (41_reader R134, R137, R139), and what
an OK response says of it. -/

namespace Sys2Proof.Machine

variable {s t u : State} {n : Nat} {v : Data}

theorem Engine.SameConfig.endian_eq {e f : Engine} (h : e.SameConfig f) : f.endian = e.endian := by
  obtain ⟨-, -, hendian, -⟩ := h
  exact hendian

/-- What READ and PEEK are past their legality check: the width check, the refill, and then `c` (41_reader R131, R137, R139). -/
def validatedRead (n : Nat) (c : State → Result) (s : State) : Result :=
  if !validWidth n then raise .invalidWidth s else afterFill (readerFill n s) c

theorem exec_read_of_legal (hl : LegalIn (.read n) s.engine) : exec (.read n) s = validatedRead n (takeField n) s := by
  have hlegal := (legal_iff _ _).mpr hl
  simp [exec, execRead, validatedRead, hlegal]

theorem exec_peek_of_legal (hl : LegalIn (.peek n) s.engine) : exec (.peek n) s = validatedRead n (lookField n) s := by
  have hlegal := (legal_iff _ _).mpr hl
  simp [exec, execPeek, validatedRead, hlegal]

/-! ### From the refill to the answer -/

theorem exec_read_of_done (hl : LegalIn (.read n) s.engine) (h1 : 1 ≤ n) (h2 : n ≤ 64) (hf : readerFill n s = .done u) :
    exec (.read n) s = .next ((u.withEngine (u.engine.dropOldest n)).answered ⟨.ok, u.engine.oldest n⟩) := by
  rw [exec_read hl h1 h2, hf]
  exact takeField_eq (readerFill_done_covers h2 hf)

theorem exec_peek_of_done (hl : LegalIn (.peek n) s.engine) (h1 : 1 ≤ n) (h2 : n ≤ 64) (hf : readerFill n s = .done u) :
    exec (.peek n) s = .next (u.answered ⟨.ok, u.engine.oldest n⟩) := by
  rw [exec_peek hl h1 h2, hf]
  exact lookField_eq (readerFill_done_covers h2 hf)

theorem exec_read_of_eos (hl : LegalIn (.read n) s.engine) (h1 : 1 ≤ n) (h2 : n ≤ 64) (hf : readerFill n s = .eos u) :
    exec (.read n) s = .next ((u.withEngine u.engine.clear).answered ⟨.endOfStream, 0#64⟩) := by
  rw [exec_read hl h1 h2, hf]; rfl

theorem exec_peek_of_eos (hl : LegalIn (.peek n) s.engine) (h1 : 1 ≤ n) (h2 : n ≤ 64) (hf : readerFill n s = .eos u) :
    exec (.peek n) s = .next ((u.withEngine u.engine.clear).answered ⟨.endOfStream, 0#64⟩) := by
  rw [exec_peek hl h1 h2, hf]; rfl

/-! ### From an OK response back to the refill -/

/-- The last response received is `(OK, v)`. -/
def State.LastOk (t : State) (v : Data) : Prop := t.host.responses.getLast? = some ⟨.ok, v⟩

theorem State.LastOk.of_append {l : List Response} (h : t.host.responses = l ++ [⟨.ok, v⟩]) : t.LastOk v := by
  simp [State.LastOk, h]

theorem State.lastOk_answered_iff {r : Response} : (s.answered r).LastOk v ↔ r = ⟨.ok, v⟩ := by
  simp [State.LastOk]

theorem afterFill_lastOk {f : Fill} {c : State → Result} (h : afterFill f c = .next t) (hv : t.LastOk v) : ∃ u, f = .done u ∧ c u = .next t := by
  obtain hu | ⟨u, -, rfl⟩ | ⟨u, -, rfl⟩ := afterFill_next h
  · exact hu
  · simp [State.lastOk_answered_iff] at hv
  · simp [State.lastOk_answered_iff] at hv

theorem validatedRead_lastOk {c : State → Result} (h : validatedRead n c s = .next t) (hv : t.LastOk v) :
    1 ≤ n ∧ n ≤ 64 ∧ ∃ u, readerFill n s = .done u ∧ c u = .next t := by
  unfold validatedRead at h
  split at h
  · rw [respond_eq h] at hv
    simp [State.lastOk_answered_iff] at hv
  · rename_i hw
    obtain ⟨h1, h2⟩ := (validWidth_iff n).mp (by simpa using hw)
    exact ⟨h1, h2, afterFill_lastOk h hv⟩

theorem exec_lastOk_legal {i : Instr} (h : exec i s = .next t) (hv : t.LastOk v) : LegalIn i s.engine := by
  by_contra hl
  rw [exec_illegal hl] at h
  cases h
  simp [State.lastOk_answered_iff] at hv

/-- What a READ that succeeds has done. -/
theorem exec_read_ok (h : exec (.read n) s = .next t) (hv : t.LastOk v) :
    1 ≤ n ∧ n ≤ 64 ∧ ∃ u, readerFill n s = .done u ∧ t = (u.withEngine (u.engine.dropOldest n)).answered ⟨.ok, v⟩ ∧ v = u.engine.oldest n := by
  rw [exec_read_of_legal (exec_lastOk_legal h hv)] at h
  obtain ⟨h1, h2, u, hu, hut⟩ := validatedRead_lastOk h hv
  obtain ⟨-, rfl⟩ := takeField_next hut
  obtain rfl : u.engine.oldest n = v := by simpa [State.lastOk_answered_iff] using hv
  exact ⟨h1, h2, u, hu, rfl, rfl⟩

/-- What a PEEK that succeeds has done. -/
theorem exec_peek_ok (h : exec (.peek n) s = .next t) (hv : t.LastOk v) :
    1 ≤ n ∧ n ≤ 64 ∧ ∃ u, readerFill n s = .done u ∧ t = u.answered ⟨.ok, v⟩ ∧ v = u.engine.oldest n := by
  rw [exec_peek_of_legal (exec_lastOk_legal h hv)] at h
  obtain ⟨h1, h2, u, hu, hut⟩ := validatedRead_lastOk h hv
  obtain ⟨-, rfl⟩ := lookField_next hut
  obtain rfl : u.engine.oldest n = v := by simpa [State.lastOk_answered_iff] using hv
  exact ⟨h1, h2, u, hu, rfl, rfl⟩

end Sys2Proof.Machine
end

section
/-! PROOFS. READ and PEEK with every mandatory pull answered (41_reader R132 to R141), and with an EOS among them (R134). -/

namespace Sys2Proof.Machine

variable {s t : State} {n : Nat}

/-! ### The refills -/

theorem readerFill_of_std (htier : s.engine.tier = .std) : readerFill n s = stdFill n s := if_pos htier

/-- With `n <= CNT` no tier's refill does anything (41_reader R132, R136). -/
theorem readerFill_of_le (h : n ≤ s.engine.count) : readerFill n s = .done s := by
  have hneed : s.engine.need n = 0 := if_pos h
  simp [readerFill, bulkFill, stdFill, hneed, fillBytes]

/-- After the mandatory bytes `bs` the BULK tier draws `m`, and makes `j` optional pulls, which bring the bytes `extra` (41_reader R136). -/
theorem readerFill_prefetches {bs extra : List Byte} {k m j : Nat} (htier : s.engine.tier ≠ .std) (ha : s.engine.AccOk) (hn : n ≤ 64)
    (hlt : s.engine.count < n) (hk : k = s.engine.need n) (hbs : s.source.answers k = bs.map .byte)
    (hm : m = min s.prefetch.wish (min s.prefetch.maxExtra ((71 - (s.engine.count + 8 * k)) / 8)))
    (hanswered : ∀ a ∈ (s.source.after k).answers m, a ≠ .never) (hextra : extra = leadingBytes ((s.source.after k).answers m))
    (hj : j = min m (extra.length + 1)) :
    ∃ e, readerFill n s = .done { s with engine := e, source := s.source.after (k + j), prefetch := s.prefetch.drawn } ∧
      e.window = s.engine.window ++ streamBits s.engine.endian (bs ++ extra) ∧ e.AccOk ∧ s.engine.SameConfig e := by
  subst hk hextra
  obtain ⟨e, hstd, hw, hc, -, hok, hs⟩ := stdFill_bytes ha hn hbs
  have hdraw : m = State.prefetchCount { s with engine := e, source := s.source.after (s.engine.need n) } := by
    rw [hm, ← hc]; rfl
  have hroom : e.count + 8 * m ≤ cntMax := by
    have hmax : e.count ≤ 71 := hok.1
    unfold cntMax; omega
  obtain ⟨f, i, hf, rfl, hw', -, hok', hs'⟩ := prefetchBytes_spec
    (s := { s with engine := e, source := s.source.after (s.engine.need n), prefetch := s.prefetch.drawn }) hok hroom hanswered
  refine ⟨f, ?_, ?_, hok', hs.trans hs'⟩
  · simp only [readerFill, bulkFill, htier, hstd, Engine.need_pos hlt, if_true, if_false, optionalFill, ← hdraw, hf, hj, Source.after_add]
  · rw [hw', streamBits_append, ← List.append_assoc]
    simp only [hw, hs.endian_eq]

theorem stdFill_eos {bs : List Byte} {rest : List SourceAnswer} (hn : n ≤ 64)
    (h : s.source.answers (s.engine.need n) = bs.map .byte ++ .eos :: rest) :
    ∃ e, stdFill n s = .eos { s with engine := e, source := s.source.after (bs.length + 1) } ∧ s.engine.SameConfig e := by
  rcases Engine.need_le s.engine hn with hneed | hroom
  · simp [hneed, Source.answers] at h
  · exact fillBytes_eos hroom h

theorem readerFill_of_stdFill_eos (h : stdFill n s = .eos t) : readerFill n s = .eos t := by
  simp [readerFill, bulkFill, h]

/-! ### The bytes delivered -/

/-- However many optional pulls are allowed, the bytes delivered are those before the first EOS. -/
theorem Source.after_delivered_leadingBytes (m : Nat) (q : Source) :
    (q.after (min m ((leadingBytes (q.answers m)).length + 1))).delivered = q.delivered ++ leadingBytes (q.answers m) := by
  induction m generalizing q with
  | zero => simp [Source.after, Source.answers, leadingBytes]
  | succ m ih =>
    cases hq : q.answer with
    | byte b =>
      simp only [Source.answers, hq, leadingBytes, List.length_cons, Nat.add_min_add_right]
      rw [Source.after, ih, Source.pulled_byte hq, List.append_assoc, List.singleton_append]
    | eos => simp [Source.answers, hq, leadingBytes, Source.after, Source.pulled]
    | never => simp [Source.answers, hq, leadingBytes, Source.after, Source.pulled]

theorem Source.after_delivered_eos {q : Source} {k : Nat} {bs : List Byte} {rest : List SourceAnswer}
    (h : q.answers k = bs.map .byte ++ .eos :: rest) : (q.after (bs.length + 1)).delivered = q.delivered ++ bs := by
  induction bs generalizing k q with
  | nil =>
    obtain ⟨_, -, hq, -⟩ := Source.answers_cons h
    simp [Source.after, Source.pulled_eos hq]
  | cons b bs ih =>
    obtain ⟨m, -, hq, hrest⟩ := Source.answers_cons h
    rw [List.length_cons, Source.after, ih hrest, Source.pulled_byte hq, List.append_assoc, List.singleton_append]

theorem Source.answers_bytes_length {q : Source} {k : Nat} {bs : List Byte} (h : q.answers k = bs.map .byte) : bs.length = k := by
  simpa [Source.answers_length] using (congrArg List.length h).symm

/-! ### The statements -/

/-- Settles O25: the refill appends the bytes, and `take` splits the field off the front of the window. -/
theorem stdReadTakesNextBits : Obligations.StdReadTakesNextBits := by
  rintro n s bs ⟨hv, ht⟩ h1 h2 ha hbs
  obtain ⟨e, hf, hw, hc, hcover, hok, hs⟩ := stdFill_bytes ha h2 hbs
  refine ⟨e.oldest n, e.dropOldest n, exec_read_of_done ⟨hv, .inl ht⟩ h1 h2 ((readerFill_of_std ht).trans hf), ?_, e.oldest_lt n, ?_,
    Engine.dropOldest_accOk n hok, hs.trans (e.dropOldest_sameConfig n), Source.after_delivered hbs⟩
  · rw [← hw, ← hs.endian_eq, Engine.oldest_spec hok h2 hcover]
  · rw [Engine.dropOldest_count hok.1, Source.answers_bytes_length hbs]; omega

/-- Settles O26: the refill is that of READ, and `look` shows the front of the window. -/
theorem stdPeekShowsNextBits : Obligations.StdPeekShowsNextBits := by
  rintro n s bs ⟨hv, ht⟩ h1 h2 ha hbs
  obtain ⟨e, hf, hw, hc, hcover, hok, hs⟩ := stdFill_bytes ha h2 hbs
  refine ⟨e.oldest n, e, exec_peek_of_done ⟨hv, .inl ht⟩ h1 h2 ((readerFill_of_std ht).trans hf), ?_, e.oldest_lt n, hw, ?_, hok, hs,
    Source.after_delivered hbs⟩
  · rw [← hs.endian_eq, (Engine.oldest_window hok h2 hcover).1]
  · rw [hc, Source.answers_bytes_length hbs]

/-- Settles O27: both commands end in the refill's state, of which READ takes the field and PEEK shows it. -/
theorem bulkReadPrefetches : Obligations.BulkReadPrefetches := by
  rintro n s bs extra k m j ⟨hv, ht⟩ h1 h2 ha hlt hk hbs hm hanswered hextra hj
  obtain ⟨e, hf, hw, hok, hs⟩ := readerFill_prefetches (by simp [ht]) ha h2 hlt hk hbs hm hanswered hextra hj
  have hcover : n ≤ e.count := readerFill_done_covers h2 hf
  refine ⟨e.oldest n, e.dropOldest n, e, exec_read_of_done ⟨hv, .inr ht⟩ h1 h2 hf, exec_peek_of_done ⟨hv, .inr ht⟩ h1 h2 hf, hw, ?_,
    e.oldest_lt n, hok, Engine.dropOldest_accOk n hok, hs, hs.trans (e.dropOldest_sameConfig n), ?_⟩
  · rw [← hs.endian_eq, Engine.oldest_spec hok h2 hcover]
  · rw [hj, hextra, Source.after_add, Source.after_delivered_leadingBytes, Source.after_delivered hbs]

/-- Settles O28: the refill does nothing. -/
theorem bulkReadWithoutRefill : Obligations.BulkReadWithoutRefill := by
  rintro n s ⟨hv, ht⟩ h1 h2 ha hle
  have hf := readerFill_of_le hle
  exact ⟨s.engine.oldest n, s.engine.dropOldest n, exec_read_of_done ⟨hv, .inr ht⟩ h1 h2 hf, exec_peek_of_done ⟨hv, .inr ht⟩ h1 h2 hf,
    (Engine.oldest_spec ha h2 hle).symm, s.engine.oldest_lt n, Engine.dropOldest_accOk n ha, s.engine.dropOldest_sameConfig n⟩

/-- Settles O29: the refill ends at the EOS, and clearing forgets what it had put in the accumulator. -/
theorem endOfStreamClears : Obligations.EndOfStreamClears := by
  intro n s bs rest htier h1 h2 h
  have hl : LegalIn (.read n) s.engine := by
    rcases htier with ⟨hv, ht⟩ | ⟨hv, ht⟩
    · exact ⟨hv, .inl ht⟩
    · exact ⟨hv, .inr ht⟩
  obtain ⟨e, he, hs⟩ := stdFill_eos h2 h
  have hf := readerFill_of_stdFill_eos he
  have hclear : e.clear = { s.engine with reg := 0#72, cnt := 0#7 } := by
    obtain ⟨hvalid, ht, hendian, hub⟩ := hs
    simp [Engine.clear, hvalid, ht, hendian, hub]
  rw [← hclear]
  exact ⟨exec_read_of_eos hl h1 h2 hf, exec_peek_of_eos hl h1 h2 hf, Source.after_delivered_eos h⟩

end Sys2Proof.Machine
end

section
/-! PROOFS. What follows a PEEK (41_reader R140, R142), and how far the STD tier looks ahead (R144). -/

namespace Sys2Proof.Machine

variable {s t u : State} {n : Nat} {v : Data}

/-- A PEEK that succeeds leaves a reader that holds the `n` bits, the oldest of which it has shown. -/
theorem exec_peek_ok_holds (h : exec (.peek n) s = .next t) (hv : t.LastOk v) :
    LegalIn (.peek n) t.engine ∧ 1 ≤ n ∧ n ≤ 64 ∧ n ≤ t.engine.count ∧ v = t.engine.oldest n := by
  have hl := exec_lastOk_legal h hv
  obtain ⟨hvalid, htier, -⟩ := (execPeek_keeps h).config
  obtain ⟨h1, h2, u, hf, rfl, rfl⟩ := exec_peek_ok h hv
  have hcover : n ≤ u.engine.count := readerFill_done_covers h2 hf
  refine ⟨?_, h1, h2, hcover, rfl⟩
  simpa only [LegalIn, hvalid, htier] using hl

/-- Settles O34: after the first PEEK the accumulator holds the `n` bits, so the second needs no refill. -/
theorem peekIsIdempotent : Obligations.PeekIsIdempotent := by
  intro n s t v h hv
  obtain ⟨hl, h1, h2, hcover, rfl⟩ := exec_peek_ok_holds h (.of_append hv)
  exact exec_peek_of_done hl h1 h2 (readerFill_of_le hcover)

/-- Settles O35: after the PEEK the accumulator holds the `n` bits, so the READ needs no refill. -/
theorem readAfterPeekPullsNothing : Obligations.ReadAfterPeekPullsNothing := by
  intro n m s t v ha h hv h1 hmn
  obtain ⟨hl, -, h2, hcover, rfl⟩ := exec_peek_ok_holds h (.of_append hv)
  obtain ⟨hconfig, haccOk⟩ := execPeek_keeps h
  have hok := haccOk ha
  obtain ⟨hpeeked, -⟩ := Engine.oldest_window hok h2 hcover
  obtain ⟨hread, hrest⟩ := Engine.oldest_window hok (hmn.trans h2) (hmn.trans hcover)
  refine ⟨t.engine.oldest m, t.engine.dropOldest m, exec_read_of_done hl h1 (hmn.trans h2) (readerFill_of_le (hmn.trans hcover)), ?_,
    t.engine.oldest_lt m, hrest, Engine.dropOldest_accOk m hok, t.engine.dropOldest_sameConfig m⟩
  rw [← hconfig.endian_eq, hread, hpeeked, List.take_take, Nat.min_eq_left hmn]

/-- The count after an STD refill: what was there, or at most 7 bits more than asked for (41_reader R132). -/
theorem readerFill_std_count (htier : s.engine.tier = .std) (ha : s.engine.AccOk) (hn : n ≤ 64) (hf : readerFill n s = .done u) :
    n ≤ u.engine.count ∧ (n ≤ s.engine.count → u.engine.count = s.engine.count) ∧ (s.engine.count < n → u.engine.count ≤ n + 7) := by
  refine ⟨readerFill_done_covers hn hf, fun hle => ?_, fun hlt => ?_⟩
  · rw [readerFill_of_le hle] at hf
    cases hf; rfl
  · rw [readerFill_of_std htier] at hf
    obtain ⟨-, -, hneed⟩ := Engine.need_spec ha.1 hn
    obtain ⟨-, hbound⟩ := hneed (Engine.need_pos hlt)
    rw [stdFill_done_count hn hf]; exact hbound

/-- Settles O36: READ takes its `n` bits of the refilled count, PEEK leaves it. -/
theorem stdLookAheadBounds : Obligations.StdLookAheadBounds := by
  rintro n s t v ⟨-, ht⟩ ha hv
  constructor
  · intro h
    obtain ⟨-, h2, u, hf, rfl, -⟩ := exec_read_ok h (.of_append hv)
    obtain ⟨hcover, hle, hlt⟩ := readerFill_std_count ht ha h2 hf
    rw [State.answered_engine, State.withEngine_engine, Engine.dropOldest_count_eq]
    split <;> omega
  · intro h
    obtain ⟨-, h2, u, hf, rfl, -⟩ := exec_peek_ok h (.of_append hv)
    obtain ⟨hcover, hle, hlt⟩ := readerFill_std_count ht ha h2 hf
    rw [State.answered_engine]
    omega

end Sys2Proof.Machine
end

section
/-! PROOFS. READ and PEEK on a finite stream of bytes (20_memory R52), and the BULK tier against the STD tier (41_reader R143): the tiers pull
different numbers of bytes, but the window and the bytes still to come together are the same bits. -/

namespace Sys2Proof.Machine

variable {s b t u : State} {n : Nat} {w : List Bool} {bs ahead rest : List Byte}

/-! ### A source that gives the bytes listed, then EOS for ever -/

@[simp] theorem Source.after_script (k : Nat) (q : Source) : (q.after k).script = q.script.drop k := by
  induction k generalizing q with
  | zero => rfl
  | succ k ih => rw [Source.after, ih, Source.pulled_script, List.drop_tail]

@[simp] theorem Source.after_deterministic (k : Nat) (q : Source) : (q.after k).deterministic = q.deterministic := by
  induction k generalizing q with
  | zero => rfl
  | succ k ih => exact ih q.pulled

theorem Source.answers_of_script {q : Source} (hdet : q.deterministic = true) (hscript : q.script = bs.map .byte) (k : Nat) :
    q.answers k = (bs.take k).map .byte ++ List.replicate (k - bs.length) .eos := by
  induction k generalizing q bs with
  | zero => simp [Source.answers]
  | succ k ih =>
    cases bs with
    | nil =>
      have hanswer : q.answer = .eos := by simp [Source.answer, hscript, hdet]
      rw [Source.answers, hanswer, ih (q := q.pulled) (bs := []) hdet (by simp [hscript])]
      simp [List.replicate_succ]
    | cons c cs =>
      have hanswer : q.answer = .byte c := by simp [Source.answer, hscript]
      rw [Source.answers, hanswer, ih (q := q.pulled) (bs := cs) hdet (by simp [hscript])]
      simp

theorem leadingBytes_bytes_append_eos (bs : List Byte) (k : Nat) : leadingBytes (bs.map .byte ++ List.replicate k .eos) = bs := by
  induction bs with
  | nil => cases k <;> rfl
  | cons c cs ih => exact congrArg (c :: ·) ih

/-! ### A reader on such a stream -/

/-- The accumulator is legal and holds the bits `w`, and the source will give the bytes `bs` and then EOS for ever. -/
structure State.OnStream (s : State) (w : List Bool) (bs : List Byte) : Prop where
  accOk : s.engine.AccOk
  window : s.engine.window = w
  deterministic : s.source.deterministic = true
  script : s.source.script = bs.map .byte

theorem State.OnStream.count_eq (h : s.OnStream w bs) : s.engine.count = w.length := by
  rw [← h.window, Engine.window_length]

theorem State.OnStream.answers (h : s.OnStream w bs) (k : Nat) :
    s.source.answers k = (bs.take k).map .byte ++ List.replicate (k - bs.length) .eos :=
  Source.answers_of_script h.deterministic h.script k

theorem State.OnStream.answers_ne_never (h : s.OnStream w bs) (k : Nat) : ∀ a ∈ s.source.answers k, a ≠ .never := by
  intro a ha
  rw [h.answers, List.mem_append, List.mem_map, List.mem_replicate] at ha
  obtain ⟨c, -, rfl⟩ | ⟨-, rfl⟩ := ha <;> simp

theorem State.OnStream.answers_of_le {k : Nat} (h : s.OnStream w bs) (hk : k ≤ bs.length) : s.source.answers k = (bs.take k).map .byte := by
  rw [h.answers, Nat.sub_eq_zero_of_le hk, List.replicate_zero, List.append_nil]

/-- After `k` pulls and whatever they have put in the accumulator. -/
theorem State.OnStream.after {k : Nat} {w' : List Bool} (h : s.OnStream w bs) (hsource : t.source = s.source.after k)
    (hok : t.engine.AccOk) (hw : t.engine.window = w') : t.OnStream w' (bs.drop k) :=
  ⟨hok, hw, by simp [hsource, h.deterministic], by simp [hsource, h.script]⟩

/-- The number of optional pulls that are made is enough for all the bytes they bring. -/
theorem take_min_length_take_succ (bs : List Byte) (m : Nat) : bs.take (min m ((bs.take m).length + 1)) = bs.take m := by
  rw [List.take_eq_take_iff, List.length_take]; omega

/-- With the mandatory bytes in the stream the refill moves its first `x` bytes to the window: the STD tier just those that are needed, the
BULK tier perhaps more (41_reader R133, R136). -/
theorem State.OnStream.readerFill_done (h : s.OnStream w bs) (hn : n ≤ 64) (hlen : s.engine.need n ≤ bs.length) :
    ∃ t x, readerFill n s = .done t ∧ s.engine.need n ≤ x ∧ (s.engine.tier = .std → x = s.engine.need n) ∧
      t.OnStream (w ++ streamBits s.engine.endian (bs.take x)) (bs.drop x) := by
  have hmandatory := h.answers_of_le hlen
  by_cases htier : s.engine.tier = .std
  · obtain ⟨e, hf, hw, -, -, hok, -⟩ := stdFill_bytes h.accOk hn hmandatory
    exact ⟨_, _, (readerFill_of_std htier).trans hf, Nat.le_refl _, fun _ => rfl, h.after rfl hok (by rw [hw, h.window])⟩
  · rcases Nat.lt_or_ge s.engine.count n with hlt | hle
    · have hrest := h.after (t := { s with source := s.source.after (s.engine.need n) }) rfl h.accOk h.window
      obtain ⟨e, hf, hw, hok, -⟩ := readerFill_prefetches htier h.accOk hn hlt rfl hmandatory rfl (hrest.answers_ne_never _) rfl rfl
      refine ⟨_, _, hf, Nat.le_add_right _ _, fun ht => absurd ht htier, h.after rfl hok ?_⟩
      rw [hw, h.window, hrest.answers, leadingBytes_bytes_append_eos, List.take_add, take_min_length_take_succ]
    · have hneed : s.engine.need n = 0 := if_pos hle
      exact ⟨s, 0, readerFill_of_le hle, hneed.le, fun _ => hneed.symm, by simpa using h⟩

/-- With too few bytes in the stream the refill uses them all up and meets the EOS (41_reader R134). -/
theorem State.OnStream.readerFill_eos (h : s.OnStream w bs) (hn : n ≤ 64) (hlen : bs.length < s.engine.need n) :
    ∃ t, readerFill n s = .eos t ∧ (t.withEngine t.engine.clear).OnStream [] [] := by
  obtain ⟨m, hm⟩ := Nat.exists_eq_add_of_lt hlen
  have hanswers : s.source.answers (s.engine.need n) = bs.map .byte ++ .eos :: List.replicate m .eos := by
    rw [h.answers, List.take_of_length_le hlen.le, show s.engine.need n - bs.length = m + 1 by omega, List.replicate_succ]
  obtain ⟨e, hf, -⟩ := stdFill_eos hn hanswers
  refine ⟨_, readerFill_of_stdFill_eos hf, ?_⟩
  have hrest := h.after (k := bs.length + 1) (t := State.withEngine { s with engine := e, source := s.source.after (bs.length + 1) } e.clear)
    rfl e.clear_accOk e.clear_window
  rwa [List.drop_of_length_le (Nat.le_succ _)] at hrest

/-! ### The two tiers -/

/-- An STD and a BULK reader in the same bit order, with the same responses so far. -/
structure State.TierPair (s b : State) : Prop where
  std : s.engine.Is .std
  bulk : b.engine.Is .bulk
  endian : s.engine.endian = b.engine.endian
  responses : s.host.responses = b.host.responses

theorem bulkAhead_iff : BulkAhead s b ahead rest ↔
    s.TierPair b ∧ ∃ w, s.OnStream w (ahead ++ rest) ∧ b.OnStream (w ++ streamBits s.engine.endian ahead) rest := by
  constructor
  · rintro ⟨hstd, hbulk, hendian, has, hab, hw, hsscript, hsdet, hbscript, hbdet, hr⟩
    exact ⟨⟨hstd, hbulk, hendian, hr⟩, _, ⟨has, rfl, hsdet, hsscript⟩, ⟨hab, hw, hbdet, hbscript⟩⟩
  · rintro ⟨⟨hstd, hbulk, hendian, hr⟩, w, ⟨has, rfl, hsdet, hsscript⟩, ⟨hab, hw, hbdet, hbscript⟩⟩
    exact ⟨hstd, hbulk, hendian, has, hab, hw, hsscript, hsdet, hbscript, hbdet, hr⟩

/-- Both engines keep their configuration, and both hosts receive the same. -/
theorem State.TierPair.of_sameConfig (h : s.TierPair b) (ht : s.engine.SameConfig t.engine) (hu : b.engine.SameConfig u.engine)
    (hr : t.host.responses = u.host.responses) : t.TierPair u := by
  obtain ⟨⟨hsv, hst⟩, ⟨hbv, hbt⟩, hendian, -⟩ := h
  obtain ⟨htv, htt, hte, -⟩ := ht
  obtain ⟨huv, hut, hue, -⟩ := hu
  exact ⟨⟨htv.trans hsv, htt.trans hst⟩, ⟨huv.trans hbv, hut.trans hbt⟩, hte.trans (hendian.trans hue.symm), hr⟩

/-- However both refills end, they leave such a pair. -/
theorem State.TierPair.readerFill (h : s.TierPair b) (ht : (readerFill n s).state = some t) (hu : (readerFill n b).state = some u) :
    t.TierPair u := by
  obtain ⟨-, hthost, -, -, htconfig⟩ := readerFill_frame ht
  obtain ⟨-, huhost, -, -, huconfig⟩ := readerFill_frame hu
  exact h.of_sameConfig htconfig huconfig (by rw [hthost, huhost, h.responses])

/-- Each whole byte that is there already is one byte less to pull (41_reader R132). -/
theorem Engine.need_of_count_add {e f : Engine} {k : Nat} (h : f.count = e.count + 8 * k) : f.need n = e.need n - k := by
  unfold Engine.need ceilDiv
  split <;> split <;> omega

theorem BulkAhead.need_eq (h : BulkAhead s b ahead rest) : b.engine.need n = s.engine.need n - ahead.length := by
  obtain ⟨-, w, hs, hb⟩ := bulkAhead_iff.mp h
  refine Engine.need_of_count_add ?_
  rw [hs.count_eq, hb.count_eq, List.length_append, streamBits_length]

/-- Where the stream holds the mandatory bytes of one tier it holds those of the other, and the BULK reader is still ahead afterwards: it had
been, or it pulls at least what it lacks. -/
theorem BulkAhead.readerFill_done (h : BulkAhead s b ahead rest) (hn : n ≤ 64) (hlen : s.engine.need n ≤ ahead.length + rest.length) :
    ∃ t u ahead' rest', readerFill n s = .done t ∧ readerFill n b = .done u ∧ BulkAhead t u ahead' rest' := by
  have hneed := h.need_eq (n := n)
  obtain ⟨hpair, w, hs, hb⟩ := bulkAhead_iff.mp h
  obtain ⟨t, k, ht, -, hk, hts⟩ := hs.readerFill_done hn (by rw [List.length_append]; exact hlen)
  obtain ⟨u, x, hu, hx, -, hub⟩ := hb.readerFill_done hn (by omega)
  obtain ⟨-, hstd⟩ := hpair.std
  obtain ⟨-, -, -, -, hconfig⟩ := readerFill_frame (t := t) (congrArg Fill.state ht)
  have hle : k ≤ (ahead ++ rest.take x).length := by
    rw [hk hstd, List.length_append, List.length_take]; omega
  have hsplit : ahead ++ rest = ahead ++ rest.take x ++ rest.drop x := by rw [List.append_assoc, List.take_append_drop]
  refine ⟨t, u, (ahead ++ rest.take x).drop k, rest.drop x, ht, hu, bulkAhead_iff.mpr
    ⟨hpair.readerFill (congrArg Fill.state ht) (congrArg Fill.state hu), w ++ streamBits s.engine.endian ((ahead ++ rest.take x).take k), ?_, ?_⟩⟩
  · rwa [hsplit, List.take_append_of_le_length hle, List.drop_append_of_le_length hle] at hts
  · rw [← hpair.endian, List.append_assoc, ← streamBits_append] at hub
    rwa [hconfig.endian_eq, List.append_assoc, ← streamBits_append, List.take_append_drop]

theorem BulkAhead.readerFill_eos (h : BulkAhead s b ahead rest) (hn : n ≤ 64) (hlen : ahead.length + rest.length < s.engine.need n) :
    ∃ t u, readerFill n s = .eos t ∧ readerFill n b = .eos u ∧ BulkAhead (t.withEngine t.engine.clear) (u.withEngine u.engine.clear) [] [] := by
  have hneed := h.need_eq (n := n)
  obtain ⟨hpair, w, hs, hb⟩ := bulkAhead_iff.mp h
  obtain ⟨t, ht, hts⟩ := hs.readerFill_eos hn (by rw [List.length_append]; exact hlen)
  obtain ⟨u, hu, hub⟩ := hb.readerFill_eos hn (by omega)
  have hpair' : t.TierPair u := hpair.readerFill (congrArg Fill.state ht) (congrArg Fill.state hu)
  refine ⟨t, u, ht, hu, bulkAhead_iff.mpr ⟨?_, [], hts, hub⟩⟩
  exact hpair'.of_sameConfig t.engine.clear_keeps.config u.engine.clear_keeps.config hpair'.responses

/-! ### The answers -/

/-- Both commands are answered, and they leave readers of which the BULK one is ahead; so the responses are equal. -/
def BulkAlike (r q : Result) : Prop :=
  ∃ (s b : State) (ahead rest : List Byte), r = .next s ∧ q = .next b ∧ BulkAhead s b ahead rest

theorem BulkAhead.respond (h : BulkAhead s b ahead rest) (st : Status) (v : Data) : BulkAlike (respond st v s) (respond st v b) := by
  obtain ⟨hpair, w, hs, hb⟩ := bulkAhead_iff.mp h
  refine ⟨_, _, ahead, rest, rfl, rfl, bulkAhead_iff.mpr ⟨hpair.of_sameConfig (.refl _) (.refl _) ?_, w, ?_, ?_⟩⟩
  · rw [State.answered_responses, State.answered_responses, hpair.responses]
  · exact hs.after (k := 0) rfl hs.accOk hs.window
  · exact hb.after (k := 0) rfl hb.accOk hb.window

section
variable (h : BulkAhead s b ahead rest) (hn : n ≤ 64) (hs : n ≤ s.engine.count)
include h hs

theorem BulkAhead.count_le : n ≤ b.engine.count := by
  obtain ⟨-, w, hsw, hbw⟩ := bulkAhead_iff.mp h
  rw [hsw.count_eq] at hs
  rw [hbw.count_eq, List.length_append]
  omega

include hn

/-- Both windows begin with the same `n` bits. -/
theorem BulkAhead.oldest_eq : s.engine.oldest n = b.engine.oldest n := by
  have hb := h.count_le hs
  obtain ⟨hpair, w, hsw, hbw⟩ := bulkAhead_iff.mp h
  refine fieldBits_inj (d := s.engine.endian) (s.engine.oldest_lt n) (b.engine.oldest_lt n) ?_
  obtain ⟨hsfield, -⟩ := Engine.oldest_window hsw.accOk hn hs
  obtain ⟨hbfield, -⟩ := Engine.oldest_window hbw.accOk hn hb
  rw [hsfield, hpair.endian, hbfield, hsw.window, hbw.window, List.take_append_of_le_length (hsw.count_eq ▸ hs)]

theorem BulkAhead.dropOldest :
    BulkAhead (s.withEngine (s.engine.dropOldest n)) (b.withEngine (b.engine.dropOldest n)) ahead rest := by
  have hb := h.count_le hs
  obtain ⟨hpair, w, hsw, hbw⟩ := bulkAhead_iff.mp h
  obtain ⟨-, hsrest⟩ := Engine.oldest_window hsw.accOk hn hs
  obtain ⟨-, hbrest⟩ := Engine.oldest_window hbw.accOk hn hb
  refine bulkAhead_iff.mpr ⟨hpair.of_sameConfig (s.engine.dropOldest_sameConfig n) (b.engine.dropOldest_sameConfig n) hpair.responses,
    w.drop n, ?_, ?_⟩
  · exact hsw.after (k := 0) rfl (Engine.dropOldest_accOk n hsw.accOk) (by rw [State.withEngine_engine, hsrest, hsw.window])
  · refine hbw.after (k := 0) rfl (Engine.dropOldest_accOk n hbw.accOk) ?_
    rw [State.withEngine_engine, hbrest, hbw.window, List.drop_append_of_le_length (hsw.count_eq ▸ hs)]
    rfl

theorem BulkAhead.takeField : BulkAlike (takeField n s) (takeField n b) := by
  have hb := h.count_le hs
  have hrespond := (h.dropOldest hn hs).respond .ok (s.engine.oldest n)
  rw [takeField_eq hs, takeField_eq hb, ← h.oldest_eq hn hs]
  exact hrespond

theorem BulkAhead.lookField : BulkAlike (lookField n s) (lookField n b) := by
  have hb := h.count_le hs
  have hrespond := h.respond .ok (s.engine.oldest n)
  rw [lookField_eq hs, lookField_eq hb, ← h.oldest_eq hn hs]
  exact hrespond

end

theorem BulkAhead.validatedRead {c : State → Result} (h : BulkAhead s b ahead rest)
    (hc : ∀ {t u : State} {ahead rest : List Byte}, BulkAhead t u ahead rest → n ≤ 64 → n ≤ t.engine.count → BulkAlike (c t) (c u)) :
    BulkAlike (validatedRead n c s) (validatedRead n c b) := by
  unfold Machine.validatedRead
  split
  · exact h.respond _ _
  · rename_i hw
    obtain ⟨-, hn⟩ := (validWidth_iff n).mp (by simpa using hw)
    rcases Nat.lt_or_ge (ahead.length + rest.length) (s.engine.need n) with hshort | henough
    · obtain ⟨t, u, ht, hu, htu⟩ := h.readerFill_eos hn hshort
      rw [ht, hu]
      exact htu.respond _ _
    · obtain ⟨t, u, _, _, ht, hu, htu⟩ := h.readerFill_done hn henough
      rw [ht, hu]
      exact hc htu hn (readerFill_done_covers hn ht)

/-- Settles O37: the refills leave readers of which the BULK one is ahead, and what follows them looks at bits that both hold. -/
theorem bulkSimulatesStd : Obligations.BulkSimulatesStd := by
  intro n s b ahead rest h
  obtain ⟨⟨⟨hsv, hst⟩, ⟨hbv, hbt⟩, -, -⟩, -⟩ := bulkAhead_iff.mp h
  constructor
  · rw [exec_read_of_legal ⟨hsv, .inl hst⟩, exec_read_of_legal ⟨hbv, .inr hbt⟩]
    exact h.validatedRead BulkAhead.takeField
  · rw [exec_peek_of_legal ⟨hsv, .inl hst⟩, exec_peek_of_legal ⟨hbv, .inr hbt⟩]
    exact h.validatedRead BulkAhead.lookField

end Sys2Proof.Machine
end

section
/-! PROOFS. READU in terms of its mandatory refill (42_fast_reader R160, R161), and against the READ of the STD tier, which goes the same way
over the same refill (R163). -/

namespace Sys2Proof.Machine

variable {s t u : State} {n : Nat}

/-! ### READU and its refill -/

theorem exec_readu_of_done (hl : LegalIn (.readu n) s.engine) (h1 : 1 ≤ n) (h2 : n ≤ 64) (hf : stdFill n s = .done u) :
    exec (.readu n) s = .next ((u.withEngine (u.engine.dropOldest n)).answered ⟨.ok, u.engine.oldest n⟩) := by
  rw [exec_readu hl h1 h2, hf]
  exact takeField_eq (stdFill_done_covers h2 hf)

/-- A legal READU completes only with P1 and P2 met: its width is valid and its refill is done. -/
theorem exec_readu_next (hl : LegalIn (.readu n) s.engine) (h : exec (.readu n) s = .next t) :
    1 ≤ n ∧ n ≤ 64 ∧ ∃ u, stdFill n s = .done u ∧ t = (u.withEngine (u.engine.dropOldest n)).answered ⟨.ok, u.engine.oldest n⟩ := by
  have hlegal := (legal_iff _ _).mpr hl
  have hvalid : validWidth n = true := by
    by_contra hw
    rw [Bool.not_eq_true] at hw
    simp [exec, execReadu, hlegal, hw, faultUndefined] at h
  obtain ⟨h1, h2⟩ := (validWidth_iff n).mp hvalid
  rw [exec_readu hl h1 h2] at h
  obtain ⟨u, hf, hu⟩ | ⟨u, hf, -⟩ := afterUncheckedFill_next h
  · obtain ⟨-, rfl⟩ := takeField_next hu
    exact ⟨h1, h2, u, hf, rfl⟩
  · exact absurd hf (stdFill_no_overflow s h2 u)

/-- Settles O31: the refill appends the bytes, and `take` splits the field off the front of the window. -/
theorem readuTakesNextBits : Obligations.ReaduTakesNextBits := by
  intro n s bs hl h1 h2 ha hbs
  obtain ⟨e, hf, hw, hc, hcover, hok, hs⟩ := stdFill_bytes ha h2 hbs
  refine ⟨e.oldest n, e.dropOldest n, exec_readu_of_done hl h1 h2 hf, ?_, e.oldest_lt n, ?_, Engine.dropOldest_accOk n hok,
    hs.trans (e.dropOldest_sameConfig n), Source.after_delivered hbs⟩
  · rw [← hw, ← hs.endian_eq, Engine.oldest_spec hok h2 hcover]
  · rw [Engine.dropOldest_count_eq, Source.answers_bytes_length hbs]; omega

/-! ### Another tier -/

/-- The engine in another tier. -/
def Engine.inTier (e : Engine) (tier : Tier) : Engine := { e with tier := tier }

/-- The state with its engine in another tier. -/
def State.inTier (s : State) (tier : Tier) : State := s.withEngine (s.engine.inTier tier)

/-- How a refill ends, with the engine in another tier. -/
def Fill.inTier (tier : Tier) : Fill → Fill
  | .done s => .done (s.inTier tier)
  | .eos s => .eos (s.inTier tier)
  | .overflow s => .overflow (s.inTier tier)
  | .never => .never

theorem Engine.refill_inTier (e : Engine) (b : Byte) (tier : Tier) : (e.inTier tier).refill b = (e.refill b).map (·.inTier tier) := by
  rw [Engine.refill_eq, Engine.refill_eq, apply_ite (Option.map _)]
  rfl

/-- No mandatory pull looks at the tier. -/
theorem fillBytes_inTier (k : Nat) (s : State) (tier : Tier) : fillBytes k (s.inTier tier) = (fillBytes k s).inTier tier := by
  induction k generalizing s with
  | zero => rfl
  | succ k ih =>
    simp only [fillBytes, State.inTier, State.withEngine_source, State.withEngine_engine, Engine.refill_inTier]
    split
    · cases s.engine.refill _ with
      | some e => exact ih (s.pulled.withEngine e)
      | none => rfl
    · rfl
    · rfl

theorem stdFill_inTier (n : Nat) (s : State) (tier : Tier) : stdFill n (s.inTier tier) = (stdFill n s).inTier tier :=
  fillBytes_inTier (s.engine.need n) s tier

/-- Where a READU of the FAST tier completes, the READ of the STD tier does so with the same response and the same state but for the tier. -/
theorem exec_read_of_exec_readu (hl : s.engine.Is .fast) (h : exec (.readu n) s = .next t) :
    exec (.read n) (s.inTier .std) = .next (t.inTier .std) := by
  obtain ⟨h1, h2, u, hf, rfl⟩ := exec_readu_next hl h
  have hread : readerFill n (s.inTier .std) = .done (u.inTier .std) := by
    rw [readerFill_of_std rfl, stdFill_inTier, hf]; rfl
  exact exec_read_of_done (s := s.inTier .std) ⟨hl.1, .inl rfl⟩ h1 h2 hread

/-! ### Runs -/

theorem runAll_cons_next {i : Instr} {rest : List Instr} (h : runAll (i :: rest) s = .next t) :
    ∃ u, exec i s = .next u ∧ runAll rest u = .next t := by
  rw [runAll] at h
  split at h
  · exact ⟨_, ‹_›, h⟩
  · cases h
  · cases h

theorem runAll_cons_of_next {i : Instr} (rest : List Instr) (h : exec i s = .next u) : runAll (i :: rest) s = runAll rest u := by
  rw [runAll, h]

theorem exec_readu_keeps_tier {tier : Tier} (hl : s.engine.Is tier) (h : exec (.readu n) s = .next t) : t.engine.Is tier := by
  obtain ⟨hvalid, htier, -⟩ := (execReadu_keeps h).config
  exact ⟨hvalid.trans hl.1, htier.trans hl.2⟩

/-- Settles O32, READU by READU of the run. -/
theorem fastReadsEqualStdReads : Obligations.FastReadsEqualStdReads := by
  intro widths
  induction widths with
  | nil =>
    intro s t _ h
    cases h
    rfl
  | cons n widths ih =>
    intro s t hl h
    obtain ⟨u, hu, hrest⟩ := runAll_cons_next h
    exact (runAll_cons_of_next _ (exec_read_of_exec_readu hl hu)).trans (ih u t (exec_readu_keeps_tier hl hu) hrest)

end Sys2Proof.Machine
end

section
/-! PROOFS. WRITE, FLUSH and a writer's CLOSE with every offer accepted (43_writer R181 to R187, 44_control R220), and a WRITE with a refused
offer (R182). -/

namespace Sys2Proof.Machine

variable {s : State} {n k j : Nat} {d : Data} {e : Engine} {bs : List Byte} {b : Byte}

/-! ### The bytes that the sink holds after a run of offers -/

theorem Sink.offeredAll_accept {q : Sink} (h : q.answers k = List.replicate k .accept) (hlen : bs.length = k) :
    (q.offeredAll bs).bytes = q.bytes ++ bs := by
  subst hlen
  obtain ⟨-, hbytes⟩ := Sink.answers_after (l := []) (by simpa using h)
  exact hbytes

theorem Sink.offeredAll_refuse {q : Sink} {rest : List SinkAnswer} (h : q.answers k = List.replicate j .accept ++ .refuse :: rest)
    (hlen : bs.length = j) (b : Byte) : (q.offeredAll (bs ++ [b])).bytes = q.bytes ++ bs := by
  subst hlen
  obtain ⟨hnext, hbytes⟩ := Sink.answers_after h
  obtain ⟨-, -, hrefuse, -⟩ := Sink.answers_cons b hnext
  rw [Sink.offeredAll_append, ← hbytes]
  exact Sink.offered_refuse b hrefuse

/-! ### WRITE -/

theorem Engine.put_of_fits (h : e.count + n ≤ 71) (d : Data) : ∃ f, e.put d n = some f := by
  rw [← Option.ne_none_iff_exists', Ne, Engine.put_eq_none_iff]
  omega

/-- WRITE past its checks, with the engine that `put` leaves. -/
theorem exec_write_of_put (hl : LegalIn (.write n d) s.engine) (h1 : 1 ≤ n) (h2 : n ≤ 64) (hput : s.engine.put d n = some e) :
    exec (.write n d) s = afterDrain (drainAll (s.withEngine e)) (respond .ok 0#64) := by
  rw [Engine.put_eq] at hput
  split at hput
  · cases hput
  · cases hput
    exact exec_write hl h1 h2 (Nat.le_of_not_gt ‹_›)

/-- Settles O38: `put` appends the field, and the drain gives up the full bytes. -/
theorem writeDepositsField : Obligations.WriteDepositsField := by
  rintro n d s k hl h1 h2 ha hfits rfl h
  obtain ⟨f, hput⟩ := Engine.put_of_fits hfits d
  obtain ⟨hwindow, hcount, hok, hconfig⟩ := Engine.put_spec ha hput
  rw [← hcount] at h ⊢
  obtain ⟨bs, e, hdrain, hlen, hwindow', hcount', hok', hconfig'⟩ := drainBytes_accept (s := s.withEngine f) hok (Nat.mul_div_le _ _) h
  simp only [State.withEngine_engine, hconfig.endian_eq, hwindow] at hwindow' hcount'
  refine ⟨bs, e, ?_, hlen, hwindow'.symm, by omega, hok', hconfig.trans hconfig', Sink.offeredAll_accept h hlen⟩
  rw [exec_write_of_put hl h1 h2 hput, drainAll, hdrain]
  rfl

/-- The byte that is offered next is the 8 oldest bits (40_accumulator R106). -/
theorem Engine.frontByte_window (ha : e.AccOk) (h : e.frontByte = some b) : byteBits e.endian b = e.window.take 8 := by
  have hfull : 8 ≤ e.count := by
    by_contra hlt
    rw [e.frontByte_eq_none_iff.mpr (by omega)] at h
    cases h
  have hdrain : e.drainByte = some (b, e.dropOldest 8) := by
    simp [Engine.drainByte, Engine.dropByte, h, Nat.not_lt.mpr hfull]
  obtain ⟨hbits, -⟩ := Engine.drainByte_window ha hdrain
  exact hbits

/-- Settles O39: `put` appends the field, and the drain stops at the refused byte, which it leaves in front. -/
theorem writeSinkFailKeepsBits : Obligations.WriteSinkFailKeepsBits := by
  intro n d s j rest hl h1 h2 ha hfits h
  obtain ⟨f, hput⟩ := Engine.put_of_fits hfits d
  obtain ⟨hwindow, hcount, hok, hconfig⟩ := Engine.put_spec ha hput
  rw [← hcount] at h
  obtain ⟨bs, b, e, hdrain, hlen, hwindow', -, hok', hconfig', hfront⟩ :=
    drainBytes_refuse (s := s.withEngine f) hok (Nat.mul_div_le _ _) h
  simp only [State.withEngine_engine, hconfig.endian_eq, hwindow] at hwindow'
  have hkept := hconfig.trans hconfig'
  refine ⟨bs, b, e, ?_, hlen, hwindow'.symm, ?_, hok', hkept, Sink.offeredAll_refuse h hlen b⟩
  · rw [exec_write_of_put hl h1 h2 hput, drainAll, hdrain]
    rfl
  · rw [← hkept.endian_eq, Engine.frontByte_window hok' hfront]

/-! ### FLUSH and CLOSE -/

theorem Engine.SameConfig.clear_eq {e f : Engine} (h : e.SameConfig f) : f.clear = e.clear := by
  obtain ⟨hvalid, htier, hendian, hub⟩ := h
  simp [Engine.clear, hvalid, htier, hendian, hub]

/-- A legal accumulator that holds no bit is already clear (10_state R26). -/
theorem Engine.clear_eq_self (ha : e.AccOk) (hc : e.count = 0) : e.clear = e := by
  obtain ⟨-, hreg⟩ := ha
  rw [hc, Nat.pow_zero, Nat.lt_one_iff] at hreg
  rw [Engine.clear, ← BitVec.eq_of_toNat_eq (x := e.cnt) (y := 0#7) hc, ← BitVec.eq_of_toNat_eq (x := e.reg) (y := 0#72) hreg]

/-- The pad sends what is left, less than a byte, in one byte, or nothing (43_writer R186). -/
theorem padOut_accept (ha : s.engine.AccOk) (hlt : s.engine.count < 8) (hk : k = (s.engine.count + 7) / 8)
    (h : s.sink.answers k = List.replicate k .accept) :
    ∃ bs, padOut s = .done { s with engine := s.engine.clear, sink := s.sink.offeredAll bs } ∧ bs.length = k ∧
      streamBits s.engine.endian bs = s.engine.window ++ zeros (8 * k - s.engine.count) := by
  rcases Nat.eq_zero_or_pos s.engine.count with hzero | hpos
  · obtain rfl : k = 0 := by omega
    refine ⟨[], ?_, rfl, ?_⟩
    · rw [padOut, if_neg (by omega), Engine.clear_eq_self ha hzero]
      rfl
    · rw [← Engine.clear_eq_self ha hzero, Engine.clear_window]
      simp [zeros]
  · obtain rfl : k = 1 := by omega
    obtain ⟨b, hpad⟩ : ∃ b, s.engine.padByte = some b := by
      rw [← Option.ne_none_iff_exists', Ne, Engine.padByte_eq_none_iff]
      omega
    obtain ⟨hbits, -⟩ := Engine.padByte_spec ha hpad
    obtain ⟨-, -, haccept, -⟩ := Sink.answers_cons b h
    refine ⟨[b], ?_, rfl, ?_⟩
    · simp only [padOut, if_pos hpos, hpad, haccept]
      rfl
    · rw [streamBits_cons, hbits]
      simp

/-- A flush whose offers are all accepted sends the pending bits and then zeros (43_writer R186, R187). -/
theorem flushAll_accept (ha : s.engine.AccOk) (hk : k = (s.engine.count + 7) / 8) (h : s.sink.answers k = List.replicate k .accept) :
    ∃ bs, flushAll s = .done { s with engine := s.engine.clear, sink := s.sink.offeredAll bs } ∧ bs.length = k ∧
      streamBits s.engine.endian bs = s.engine.window ++ zeros (8 * k - s.engine.count) := by
  have hfull : s.sink.answers (s.engine.count / 8) = List.replicate (s.engine.count / 8) .accept := by
    rw [← Sink.answers_take s.sink (show s.engine.count / 8 ≤ k by omega), h, List.take_replicate, Nat.min_eq_left (by omega)]
  obtain ⟨bs, e, hdrain, hlen, hwindow, hcount, hok, hconfig⟩ := drainBytes_accept ha (Nat.mul_div_le _ _) hfull
  have hrest : (s.sink.offeredAll bs).answers (k - bs.length) = List.replicate (k - bs.length) .accept := by
    obtain ⟨hrest, -⟩ := Sink.answers_after (bs := bs) (k := k) (l := List.replicate (k - bs.length) .accept)
      (by rw [h, ← List.replicate_add, Nat.add_sub_cancel' (by omega)])
    exact hrest
  obtain ⟨cs, hpad, hlen', hwindow'⟩ := padOut_accept (s := { s with engine := e, sink := s.sink.offeredAll bs }) (k := k - bs.length)
    hok (show e.count < 8 by omega) (show _ = (e.count + 7) / 8 by omega) hrest
  refine ⟨bs ++ cs, ?_, by rw [List.length_append]; omega, ?_⟩
  · rw [Sink.offeredAll_append, ← hconfig.clear_eq]
    simp only [flushAll, drainAll, hdrain, hpad]
  · simp only [hconfig.endian_eq] at hwindow'
    rw [streamBits_append, hwindow', hwindow, List.append_assoc]
    congr 3
    omega

/-- Settles O41: the flush of both commands, of which CLOSE then forgets the configuration too. -/
theorem flushAndCloseSendPendingBits : Obligations.FlushAndCloseSendPendingBits := by
  rintro s k ⟨hv, ht⟩ ha hk h
  obtain ⟨bs, hflush, hlen, hbits⟩ := flushAll_accept ha hk h
  refine ⟨bs, hlen, ?_, ?_, hbits, Sink.offeredAll_accept h hlen⟩
  · rw [exec_flush ⟨hv, ht⟩, hflush]
    rfl
  · rw [exec_close hv, if_pos ht, hflush]
    rfl

end Sys2Proof.Machine
end

section
/-! PROOFS. What an OK response of WRITE or FLUSH says: the field fitted, every offer was accepted (43_writer R183, R185, R186), and how many bits
are left. -/

namespace Sys2Proof.Machine

variable {s t : State} {n k : Nat} {d v : Data}

/-! ### The width and the capacity of WRITE -/

/-- A field that does not fit is refused before any other effect (43_writer R185). -/
theorem exec_write_of_overflow (hl : LegalIn (.write n d) s.engine) (h1 : 1 ≤ n) (h2 : n ≤ 64) (h : 71 < s.engine.count + n) :
    exec (.write n d) s = .next (s.answered ⟨.overflow, 0#64⟩) := by
  have hlegal := (legal_iff _ _).mpr hl
  have hvalid := (validWidth_iff n).mpr ⟨h1, h2⟩
  have hput := (s.engine.put_eq_none_iff d n).mpr h
  simp [exec, execWrite, hlegal, hvalid, hput, raise, respond]

/-! ### From an OK response back to the drain -/

theorem afterDrain_lastOk {f : Drain} {c : State → Result} (h : afterDrain f c = .next t) (hv : t.LastOk v) :
    ∃ u, f = .done u ∧ c u = .next t := by
  obtain hu | ⟨u, -, rfl⟩ := afterDrain_next h
  · exact hu
  · simp [State.lastOk_answered_iff] at hv

/-- What a WRITE that succeeds has done. -/
theorem exec_write_ok (h : exec (.write n d) s = .next t) (hv : t.LastOk v) :
    LegalIn (.write n d) s.engine ∧ 1 ≤ n ∧ n ≤ 64 ∧
      ∃ e u, s.engine.put d n = some e ∧ drainAll (s.withEngine e) = .done u ∧ t = u.answered ⟨.ok, 0#64⟩ := by
  have hl := exec_lastOk_legal h hv
  have hlegal := (legal_iff _ _).mpr hl
  simp only [exec, execWrite, hlegal, Bool.not_true, Bool.false_eq_true, if_false] at h
  split_ifs at h with hw
  · rw [respond_eq h] at hv
    simp [State.lastOk_answered_iff] at hv
  · obtain ⟨h1, h2⟩ := (validWidth_iff n).mp (by simpa using hw)
    split at h
    · rw [respond_eq h] at hv
      simp [State.lastOk_answered_iff] at hv
    · obtain ⟨u, hu, hut⟩ := afterDrain_lastOk h hv
      exact ⟨hl, h1, h2, _, u, ‹_›, hu, respond_eq hut⟩

/-- What a FLUSH that succeeds has done. -/
theorem exec_flush_ok (h : exec .flush s = .next t) (hv : t.LastOk v) :
    LegalIn .flush s.engine ∧ ∃ u, flushAll s = .done u ∧ t = u.answered ⟨.ok, 0#64⟩ := by
  have hl := exec_lastOk_legal h hv
  rw [exec_flush hl] at h
  obtain ⟨u, hu, hut⟩ := afterDrain_lastOk h hv
  exact ⟨hl, u, hu, respond_eq hut⟩

/-! ### What is left in the accumulator -/

theorem padOut_done_count (h : padOut s = .done t) : t.engine.count = 0 := by
  unfold padOut at h
  split at h
  · split at h
    · split at h
      · cases h; rfl
      all_goals cases h
    · cases h
  · cases h; omega

/-- A flush is done only when its drain is, and then its pad. -/
theorem flushAll_done (h : flushAll s = .done t) : ∃ u, drainAll s = .done u ∧ padOut u = .done t := by
  unfold flushAll at h
  split at h
  · exact ⟨_, ‹_›, h⟩
  all_goals cases h

theorem exec_flush_ok_count (h : exec .flush s = .next t) (hv : t.LastOk v) : t.engine.count = 0 := by
  obtain ⟨-, u, hflush, rfl⟩ := exec_flush_ok h hv
  obtain ⟨_, -, hpad⟩ := flushAll_done hflush
  exact padOut_done_count (t := u) hpad

/-- Settles O40: a drain that is done leaves less than a byte, a flush nothing. -/
theorem writeOverflow : Obligations.WriteOverflow := by
  refine ⟨fun n d s hl h1 h2 h => exec_write_of_overflow hl h1 h2 h, ?_⟩
  rintro i s t (⟨n, d, rfl⟩ | rfl) h hr
  · obtain ⟨-, -, -, e, u, -, hdrain, rfl⟩ := exec_write_ok h (.of_append hr)
    exact Nat.le_of_lt_succ (drainAll_done_count (t := u) hdrain)
  · rw [exec_flush_ok_count h (.of_append hr)]
    omega

/-- With nothing in the accumulator a flush makes no offer (43_writer R187). -/
theorem flushAll_of_empty (h : s.engine.count = 0) : flushAll s = .done s := by
  simp [flushAll, drainAll, padOut, h, drainBytes]

/-- Settles O44: the first FLUSH empties the accumulator and keeps the configuration, so the second is legal and makes no offer. -/
theorem flushIsIdempotent : Obligations.FlushIsIdempotent := by
  intro s t h hr
  have hok : t.LastOk 0#64 := .of_append hr
  have hzero := exec_flush_ok_count h hok
  obtain ⟨hvalid, htier, -⟩ := (execFlush_keeps h).config
  obtain ⟨⟨hv, ht⟩, -⟩ := exec_flush_ok h hok
  refine ⟨BitVec.eq_of_toNat_eq hzero, ?_⟩
  rw [exec_flush ⟨hvalid.trans hv, htier.trans ht⟩, flushAll_of_empty hzero]
  rfl

/-! ### The answers of the sink -/

theorem drainBytes_done_answers (h : drainBytes k s = .done t) : s.sink.answers k = List.replicate k .accept := by
  induction k generalizing s with
  | zero => rfl
  | succ k ih =>
    simp only [drainBytes] at h
    split at h
    · rename_i b e _
      split at h
      · rename_i haccept
        rw [Sink.answers_succ k s.sink b, haccept, List.replicate_succ]
        exact congrArg _ (ih h)
      · cases h
      · cases h
    · cases h

theorem padOut_done_answers (h : padOut s = .done t) : s.sink.answers (min 1 s.engine.count) = List.replicate (min 1 s.engine.count) .accept := by
  unfold padOut at h
  split at h
  · rename_i hpos
    split at h
    · split at h
      · rename_i haccept
        rw [Nat.min_eq_left hpos]
        simp [Sink.answers, haccept]
      all_goals cases h
    · cases h
  · rename_i hzero
    rw [Nat.eq_zero_of_not_pos hzero]
    rfl

theorem flushAll_done_answers (ha : s.engine.AccOk) (h : flushAll s = .done t) :
    s.sink.answers ((s.engine.count + 7) / 8) = List.replicate ((s.engine.count + 7) / 8) .accept := by
  obtain ⟨u, hdrain, hpad⟩ := flushAll_done h
  have hfull := drainBytes_done_answers hdrain
  obtain ⟨bs, e, hdrain', hlen, -, hcount, -⟩ := drainBytes_accept ha (Nat.mul_div_le _ _) hfull
  obtain rfl : { s with engine := e, sink := s.sink.offeredAll bs } = u := Drain.done.inj (hdrain'.symm.trans hdrain)
  have hrest := padOut_done_answers hpad
  have hoffers : (s.engine.count + 7) / 8 = bs.length + min 1 e.count := by omega
  rw [← hlen] at hfull
  rw [hoffers, Sink.answers_add, List.replicate_add, hfull, hrest]

end Sys2Proof.Machine
end

section
/-! PROOFS. A writer's run (43_writer R190): each command that answers OK appends its bits to those sent and kept, and the FLUSH keeps none. -/

namespace Sys2Proof.Machine

variable {s t u : State} {n : Nat} {d v : Data} {bits : List Bool} {fields : List Field}

/-! ### What commands append to a writer's bits -/

/-- From `s` to `t` a writer has appended `bits`: the bits kept before and then `bits` are those sent and then those kept. -/
structure State.Writes (s t : State) (bits : List Bool) : Prop where
  config : s.engine.SameConfig t.engine
  accOk : t.engine.AccOk
  stream : ∃ out, t.sink.bytes = s.sink.bytes ++ out ∧ streamBits s.engine.endian out ++ t.engine.window = s.engine.window ++ bits

theorem State.Writes.trans {more : List Bool} (h : s.Writes u bits) (hu : u.Writes t more) : s.Writes t (bits ++ more) := by
  obtain ⟨out, hout, hbits⟩ := h.stream
  obtain ⟨out', hout', hmore⟩ := hu.stream
  refine ⟨h.config.trans hu.config, hu.accOk, out ++ out', by rw [hout', hout, List.append_assoc], ?_⟩
  rw [h.config.endian_eq] at hmore
  rw [streamBits_append, List.append_assoc, hmore, ← List.append_assoc, hbits, List.append_assoc]

theorem exec_write_writes (ha : s.engine.AccOk) (h : exec (.write n d) s = .next t) (hv : t.LastOk v) :
    s.Writes t (fieldBits s.engine.endian n d) := by
  obtain ⟨hl, h1, h2, f, u, hput, hdrain, -⟩ := exec_write_ok h hv
  obtain ⟨-, hcount, -⟩ := Engine.put_spec ha hput
  have hfits : f.count ≤ 71 := Engine.put_count_le hput
  have haccept := drainBytes_done_answers hdrain
  rw [State.withEngine_engine, hcount] at haccept
  obtain ⟨bs, e, hexec, -, hbits, -, hok, hconfig, hbytes⟩ := writeDepositsField n d s _ hl h1 h2 ha (by omega) rfl haccept
  cases h.symm.trans hexec
  exact ⟨hconfig, hok, bs, hbytes, hbits⟩

/-- A FLUSH appends less than a byte of zeros, and keeps nothing (43_writer R187). -/
theorem exec_flush_writes (ha : s.engine.AccOk) (h : exec .flush s = .next t) (hv : t.LastOk v) :
    ∃ p < 8, s.Writes t (zeros p) ∧ t.engine.window = [] := by
  obtain ⟨-, u, hflush, rfl⟩ := exec_flush_ok h hv
  have haccept := flushAll_done_answers ha hflush
  obtain ⟨bs, hflush', hlen, hbits⟩ := flushAll_accept ha rfl haccept
  cases hflush.symm.trans hflush'
  rw [← List.append_nil (streamBits _ _), ← s.engine.clear_window] at hbits
  exact ⟨_, by omega, ⟨s.engine.clear_keeps.config, s.engine.clear_accOk, bs, Sink.offeredAll_accept haccept hlen, hbits⟩,
    s.engine.clear_window⟩

/-! ### Runs in which every command answers the same -/

theorem runAll_responses {is : List Instr} (h : runAll is s = .next t) :
    ∃ l : List Response, l.length = is.length ∧ t.host.responses = s.host.responses ++ l := by
  induction is generalizing s with
  | nil => cases h; exact ⟨[], rfl, by simp⟩
  | cons i is ih =>
    obtain ⟨u, hi, hrest⟩ := runAll_cons_next h
    obtain ⟨r, hhost, -⟩ := exec_next_host hi
    obtain ⟨l, hlen, hl⟩ := ih hrest
    exact ⟨r :: l, by simp [hlen], by simp [hl, hhost]⟩

/-- Where all the commands of a run answer `r`, so does the first, and so do the others in the run that is left. -/
theorem runAll_cons_replicate {i : Instr} {is : List Instr} {r : Response} (h : runAll (i :: is) s = .next t)
    (hr : t.host.responses = s.host.responses ++ List.replicate (is.length + 1) r) :
    ∃ u, exec i s = .next u ∧ u.host.responses = s.host.responses ++ [r] ∧
      runAll is u = .next t ∧ t.host.responses = u.host.responses ++ List.replicate is.length r := by
  obtain ⟨u, hi, hrest⟩ := runAll_cons_next h
  obtain ⟨r', hhost, -⟩ := exec_next_host hi
  obtain ⟨l, -, hl⟩ := runAll_responses hrest
  obtain ⟨rfl, rfl⟩ : r' = r ∧ l = List.replicate is.length r := by
    simpa [hl, hhost, List.replicate_succ] using hr
  exact ⟨u, hi, by rw [hhost], hrest, hl⟩

/-! ### The run of a writer -/

/-- The bits of the fields in stream order. -/
def fieldsBits (order : Endian) (fields : List Field) : List Bool := fields.flatMap fun f => fieldBits order f.1 f.2

theorem fieldsBits_cons (order : Endian) (f : Field) (fields : List Field) :
    fieldsBits order (f :: fields) = fieldBits order f.1 f.2 ++ fieldsBits order fields := rfl

@[simp] theorem fieldsBits_length (order : Endian) (fields : List Field) : (fieldsBits order fields).length = totalWidth fields := by
  simp [fieldsBits, totalWidth, List.length_flatMap]

@[simp] theorem writeProgram_length (fields : List Field) : (writeProgram fields).length = fields.length + 1 := by
  simp [writeProgram]

/-- A run of WRITEs and a FLUSH, all answering OK, appends the fields and less than a byte of zeros, and keeps nothing. -/
theorem runAll_writeProgram (ha : s.engine.AccOk) (h : runAll (writeProgram fields) s = .next t)
    (hr : t.host.responses = s.host.responses ++ List.replicate (fields.length + 1) ⟨.ok, 0#64⟩) :
    ∃ p < 8, s.Writes t (fieldsBits s.engine.endian fields ++ zeros p) ∧ t.engine.window = [] := by
  induction fields generalizing s with
  | nil =>
    obtain ⟨u, hflush, hu, hrest, -⟩ := runAll_cons_replicate h hr
    cases hrest
    exact exec_flush_writes ha hflush (.of_append hu)
  | cons f fields ih =>
    rw [← writeProgram_length] at hr
    obtain ⟨u, hwrite, hu, hrest, hr'⟩ := runAll_cons_replicate h hr
    have hfirst := exec_write_writes ha hwrite (.of_append hu)
    obtain ⟨p, hp, hothers, hempty⟩ := ih hfirst.accOk hrest (by rwa [← writeProgram_length])
    rw [hfirst.config.endian_eq] at hothers
    refine ⟨p, hp, ?_, hempty⟩
    rw [fieldsBits_cons, List.append_assoc]
    exact hfirst.trans hothers

/-- A register and a count that are both 0 are an empty accumulator. -/
theorem Engine.clear_eq_of_zero {e : Engine} (hreg : e.reg = 0#72) (hcnt : e.cnt = 0#7) : e.clear = e := by
  rw [Engine.clear, ← hreg, ← hcnt]

/-- Settles O45: the bits appended are those sent, since none is kept before or after; so their number is that of whole bytes. -/
theorem writerStreamIsTheFields : Obligations.WriterStreamIsTheFields := by
  intro fields s t _ hreg hcnt _ h hr
  have hclear := Engine.clear_eq_of_zero hreg hcnt
  obtain ⟨p, hp, hwrites, hempty⟩ := runAll_writeProgram (hclear ▸ s.engine.clear_accOk) h hr
  obtain ⟨out, hout, hbits⟩ := hwrites.stream
  rw [hempty, List.append_nil, ← hclear, Engine.clear_window, List.nil_append, Engine.clear_endian] at hbits
  have hlen : 8 * out.length = totalWidth fields + p := by simpa [zeros] using congrArg List.length hbits
  refine ⟨out, hout, by unfold ceilDiv; omega, ?_⟩
  simp only [hbits, fieldBits_ofNat_mod, fieldsBits, zeros]
  congr 2
  omega

end Sys2Proof.Machine
end

section
/-! PROOFS. A reader of any tier on a finite stream of bytes (43_writer R191): as long as the stream holds them, its reads return the fields whose
bits are the next unread ones. -/

namespace Sys2Proof.Machine

variable {s t : State} {n k : Nat} {v : Data} {w bits rest : List Bool} {bs : List Byte} {fields : List Field}

/-! ### The bits a reader has not read yet -/

/-- The bits of the window and then those of the bytes still to come from the stream are `bits`. -/
def State.Unread (s : State) (bits : List Bool) : Prop := ∃ w bs, s.OnStream w bs ∧ w ++ streamBits s.engine.endian bs = bits

/-- Moving bytes from the stream to the window reads nothing. -/
theorem State.OnStream.unread_of_fill (hon : t.OnStream (w ++ streamBits s.engine.endian (bs.take k)) (bs.drop k))
    (hconfig : s.engine.SameConfig t.engine) : t.Unread (w ++ streamBits s.engine.endian bs) := by
  refine ⟨_, _, hon, ?_⟩
  rw [hconfig.endian_eq, List.append_assoc, ← streamBits_append, List.take_append_drop]

/-- The mandatory bytes of a request that the unread bits cover are in the stream (41_reader R132). -/
theorem State.OnStream.need_le (hon : s.OnStream w bs) (hlen : n ≤ (w ++ streamBits s.engine.endian bs).length) :
    s.engine.need n ≤ bs.length := by
  rw [List.length_append, streamBits_length, ← hon.count_eq] at hlen
  unfold Engine.need ceilDiv
  split <;> omega

theorem State.Unread.readerFill (h : s.Unread bits) (hn : n ≤ 64) (hlen : n ≤ bits.length) :
    ∃ t, readerFill n s = .done t ∧ t.Unread bits := by
  obtain ⟨w, bs, hon, rfl⟩ := h
  obtain ⟨t, x, hf, -, -, hont⟩ := hon.readerFill_done hn (hon.need_le hlen)
  obtain ⟨-, -, -, -, hconfig⟩ := readerFill_frame (t := t) (congrArg Fill.state hf)
  exact ⟨t, hf, hont.unread_of_fill hconfig⟩

theorem State.Unread.stdFill (h : s.Unread bits) (hn : n ≤ 64) (hlen : n ≤ bits.length) :
    ∃ t, stdFill n s = .done t ∧ t.Unread bits := by
  obtain ⟨w, bs, hon, rfl⟩ := h
  obtain ⟨e, hf, hw, -, -, hok, hconfig⟩ := stdFill_bytes hon.accOk hn (hon.answers_of_le (hon.need_le hlen))
  exact ⟨_, hf, (hon.after rfl hok (by rw [hw, hon.window])).unread_of_fill hconfig⟩

/-- Where the unread bits begin with a field, `take` returns that field and leaves the others unread. -/
theorem State.Unread.take {r : Response} (h : t.Unread (fieldBits t.engine.endian n v ++ rest)) (hv : v.toNat < 2 ^ n) (hn : n ≤ 64)
    (hc : n ≤ t.engine.count) :
    t.engine.oldest n = v ∧ ((t.withEngine (t.engine.dropOldest n)).answered r).Unread rest := by
  obtain ⟨w, bs, hon, hbits⟩ := h
  have hle : n ≤ w.length := hon.count_eq ▸ hc
  obtain ⟨hfield, hdrop⟩ := Engine.oldest_window hon.accOk hn hc
  rw [hon.window] at hfield hdrop
  constructor
  · refine fieldBits_inj (t.engine.oldest_lt n) hv (d := t.engine.endian) ?_
    rw [hfield, ← List.take_append_of_le_length hle, hbits, List.take_left' (by simp)]
  · refine ⟨_, _, hon.after (k := 0) rfl (Engine.dropOldest_accOk n hon.accOk) hdrop, ?_⟩
    rw [← List.drop_left' (l₂ := rest) (fieldBits_length t.engine.endian n v), ← hbits, List.drop_append_of_le_length hle]
    rfl

/-! ### The reads -/

/-- The read of `n` bits in a reader tier: READ, or READU in the FAST tier. -/
def readIn (tier : Tier) (n : Nat) : Instr := if tier = .fast then .readu n else .read n

theorem readProgram_cons (tier : Tier) (f : Field) (fields : List Field) :
    readProgram tier (f :: fields) = readIn tier f.1 :: readProgram tier fields := rfl

/-- Whatever the reader's tier, its read takes the field after a refill that keeps the unread bits. -/
theorem State.Unread.read_fills (h : s.Unread bits) (hcfg : s.engine.cfgValid = true) (htier : s.engine.tier ≠ .writer) (h1 : 1 ≤ n)
    (h2 : n ≤ 64) (hlen : n ≤ bits.length) :
    ∃ u : State, exec (readIn s.engine.tier n) s = .next ((u.withEngine (u.engine.dropOldest n)).answered ⟨.ok, u.engine.oldest n⟩) ∧
      n ≤ u.engine.count ∧ u.Unread bits ∧ u.host = s.host ∧ s.engine.SameConfig u.engine := by
  by_cases hfast : s.engine.tier = .fast
  · obtain ⟨u, hf, hu⟩ := h.stdFill h2 hlen
    obtain ⟨-, hhost, -, hconfig⟩ := fillBytes_frame (t := u) (congrArg Fill.state hf)
    rw [readIn, if_pos hfast]
    exact ⟨u, exec_readu_of_done ⟨hcfg, hfast⟩ h1 h2 hf, stdFill_done_covers h2 hf, hu, hhost, hconfig⟩
  · obtain ⟨u, hf, hu⟩ := h.readerFill h2 hlen
    obtain ⟨-, hhost, -, -, hconfig⟩ := readerFill_frame (t := u) (congrArg Fill.state hf)
    have hvalidated : s.engine.tier = .std ∨ s.engine.tier = .bulk := by
      cases ht : s.engine.tier with
      | std => exact .inl rfl
      | bulk => exact .inr rfl
      | fast => exact absurd ht hfast
      | writer => exact absurd ht htier
    rw [readIn, if_neg hfast]
    exact ⟨u, exec_read_of_done ⟨hcfg, hvalidated⟩ h1 h2 hf, readerFill_done_covers h2 hf, hu, hhost, hconfig⟩

/-- The read of a field whose bits come next returns it. -/
theorem State.Unread.read_next (h : s.Unread (fieldBits s.engine.endian n v ++ rest)) (hv : v.toNat < 2 ^ n)
    (hcfg : s.engine.cfgValid = true) (htier : s.engine.tier ≠ .writer) (h1 : 1 ≤ n) (h2 : n ≤ 64) :
    ∃ t : State, exec (readIn s.engine.tier n) s = .next t ∧ t.host.responses = s.host.responses ++ [⟨.ok, v⟩] ∧ t.Unread rest ∧
      s.engine.SameConfig t.engine := by
  obtain ⟨u, hexec, hcover, hu, hhost, hconfig⟩ := h.read_fills hcfg htier h1 h2 (by simp)
  rw [← hconfig.endian_eq] at hu
  obtain ⟨hvalue, hrest⟩ := hu.take hv h2 hcover
  exact ⟨_, hexec, by simp [hhost, hvalue], hrest, hconfig.trans (u.engine.dropOldest_sameConfig n)⟩

/-- What a field holds: its value modulo `2 ^ n` (30_encoding R77). -/
def fieldValue (f : Field) : Data := BitVec.ofNat 64 (f.2.toNat % 2 ^ f.1)

theorem fieldValue_lt (f : Field) : (fieldValue f).toNat < 2 ^ f.1 := by
  rw [fieldValue, BitVec.toNat_ofNat]
  exact (Nat.mod_le _ _).trans_lt (Nat.mod_lt _ (Nat.two_pow_pos _))

theorem fieldBits_fieldValue (order : Endian) (f : Field) : fieldBits order f.1 (fieldValue f) = fieldBits order f.1 f.2 :=
  fieldBits_ofNat_mod order f.1 f.2

/-- The reads of the fields' widths, where the fields' bits come next, return the fields. -/
theorem State.Unread.runAll_readProgram (hwidths : widthsOk fields) (h : s.Unread (fieldsBits s.engine.endian fields ++ rest))
    (hcfg : s.engine.cfgValid = true) (htier : s.engine.tier ≠ .writer) :
    ∃ t : State, runAll (readProgram s.engine.tier fields) s = .next t ∧
      t.host.responses = s.host.responses ++ fields.map fun f => ⟨.ok, fieldValue f⟩ := by
  induction fields generalizing s with
  | nil => exact ⟨s, rfl, by simp⟩
  | cons f fields ih =>
    obtain ⟨⟨h1, h2⟩, hothers⟩ := List.forall_mem_cons.mp hwidths
    rw [fieldsBits_cons, ← fieldBits_fieldValue, List.append_assoc] at h
    obtain ⟨u, hexec, hresponse, hu, hvalid, hsame, hendian, -⟩ := h.read_next (fieldValue_lt f) hcfg htier h1 h2
    obtain ⟨t, hrun, hresponses⟩ := ih hothers (by rwa [hendian]) (hvalid.trans hcfg) (by rwa [hsame])
    refine ⟨t, ?_, by simp [hresponses, hresponse]⟩
    rw [readProgram_cons, runAll_cons_of_next _ hexec, ← hsame, hrun]

/-- Settles O46: the bytes sent are those of the writer's stream, whose bits are the fields and then zeros that no read asks for. -/
theorem roundTrip : Obligations.RoundTrip := by
  intro fields s t r out hwriter hreg hcnt hwidths hrun hok hout hcfg htier hendian hreg' hcnt' hscript hdet
  obtain ⟨out', hout', -, hbits⟩ := writerStreamIsTheFields fields s t hwriter hreg hcnt hwidths hrun hok
  obtain rfl : out = out' := List.append_cancel_left (hout.symm.trans hout')
  have hclear := Engine.clear_eq_of_zero hreg' hcnt'
  have hon : r.OnStream [] out := ⟨hclear ▸ r.engine.clear_accOk, hclear ▸ r.engine.clear_window, hdet, hscript⟩
  have hunread : r.Unread (streamBits r.engine.endian out) := ⟨[], out, hon, rfl⟩
  rw [hendian, hbits, ← hendian] at hunread
  simp only [fieldBits_ofNat_mod] at hunread
  exact hunread.runAll_readProgram hwidths hcfg htier

end Sys2Proof.Machine
end

section
/-! PROOFS. The control commands (44_control): OPEN, AVAIL, DISCARD and CLOSE past their checks and on an idle instance, and a FLUSH or CLOSE that
the sink refuses (R221). -/

namespace Sys2Proof.Machine

variable {s : State} {j k m : Nat} {a : SinkAnswer} {rest : List SinkAnswer}

/-! ### Commands without a port transaction -/

/-- AVAIL past its check. -/
theorem exec_avail (h : s.engine.cfgValid = true) : exec .avail s = respond .ok (s.engine.cnt.setWidth 64) s := by
  have hl := (legal_iff .avail _).mpr h
  simp only [exec, execAvail, hl]; rfl

/-- A command that only a configured instance may run is refused by an idle one (60_exceptions R243). -/
theorem exec_of_idle {i : Instr} (hi : LegalIn i s.engine → s.engine.cfgValid = true) (h : s.engine.cfgValid = false) :
    exec i s = .next (s.answered ⟨.illegalCommand, 0#64⟩) :=
  exec_illegal fun hl => by simp [hi hl] at h

/-- Settles O17: the engine that a lifetime starts with, or the refusal of the legality matrix. -/
theorem openConfigures : Obligations.OpenConfigures := by
  intro tier endian s
  constructor
  · intro hidle
    rw [exec_openCmd hidle]
    rfl
  · intro hconfigured
    exact exec_illegal fun hl => by simp [hl] at hconfigured

/-- Settles O18: `zext_64(CNT)` is `CNT` as a number. -/
theorem availAnswersCount : Obligations.AvailAnswersCount := by
  intro s
  refine ⟨fun hconfigured => ?_, exec_of_idle id⟩
  rw [exec_avail hconfigured, BitVec.ofNat_toNat]
  rfl

/-- Settles O19: the end of a lifetime, without the flush of CLOSE. -/
theorem discardDropsBits : Obligations.DiscardDropsBits := by
  intro s
  refine ⟨fun hconfigured => ?_, exec_of_idle id⟩
  rw [exec_discard hconfigured]
  rfl

/-- Settles O20: only a writer flushes before its lifetime ends. -/
theorem closeOfReaderDropsBits : Obligations.CloseOfReaderDropsBits := by
  intro s hconfigured hreader
  rw [exec_close hconfigured, if_neg hreader]
  rfl

/-! ### A flush with a refused offer -/

/-- The offers before the first that is not accepted. -/
theorem Sink.answers_accepted {q : Sink} (h : q.answers k = List.replicate j .accept ++ rest) (hj : j ≤ k) :
    q.answers j = List.replicate j .accept := by
  rw [← Sink.answers_take q hj, h, List.take_left' List.length_replicate]

/-- Among fewer offers, that one is still the first that is not accepted. -/
theorem Sink.answers_first {q : Sink} (h : q.answers k = List.replicate j .accept ++ a :: rest) (hm : m ≤ k) (hj : j < m) :
    ∃ rest', q.answers m = List.replicate j .accept ++ a :: rest' := by
  obtain ⟨i, rfl⟩ := Nat.exists_eq_add_of_lt hj
  refine ⟨rest.take i, ?_⟩
  rw [← Sink.answers_take q hm, h, Nat.add_assoc, List.take_append]
  simp

/-- A refused pad stays in the accumulator as the bits it was made of (43_writer R188). -/
theorem padOut_refuse (hpos : 0 < s.engine.count) (hlt : s.engine.count < 8) (h : s.sink.answer = .refuse) :
    ∃ b, padOut s = .refused (s.offered b) := by
  obtain ⟨b, hpad⟩ : ∃ b, s.engine.padByte = some b := by
    rw [← Option.ne_none_iff_exists', Ne, Engine.padByte_eq_none_iff]
    omega
  exact ⟨b, by simp only [padOut, if_pos hpos, hpad, h]⟩

/-- A flush stops at the refused offer, of a full byte or of the pad, and keeps the bits that were not accepted (43_writer R182, R188). -/
theorem flushAll_refuse (ha : s.engine.AccOk)
    (h : s.sink.answers ((s.engine.count + 7) / 8) = List.replicate j .accept ++ .refuse :: rest) :
    ∃ bs b e, flushAll s = .refused { s with engine := e, sink := s.sink.offeredAll (bs ++ [b]) } ∧ bs.length = j ∧
      streamBits s.engine.endian bs ++ e.window = s.engine.window ∧ e.AccOk ∧ s.engine.SameConfig e := by
  have hlen := congrArg List.length h
  simp only [Sink.answers_length, List.length_append, List.length_replicate, List.length_cons] at hlen
  rcases Nat.lt_or_ge j (s.engine.count / 8) with hfull | hpad
  · obtain ⟨rest', hrefuse⟩ := Sink.answers_first h (by omega) hfull
    obtain ⟨bs, b, e, hdrain, hbs, hwindow, -, hok, hconfig, -⟩ := drainBytes_refuse ha (Nat.mul_div_le _ _) hrefuse
    exact ⟨bs, b, e, by simp only [flushAll, drainAll, hdrain], hbs, hwindow.symm, hok, hconfig⟩
  · obtain rfl : j = s.engine.count / 8 := by omega
    have haccept := Sink.answers_accepted h (by omega)
    obtain ⟨bs, e, hdrain, hbs, hwindow, hcount, hok, hconfig⟩ := drainBytes_accept ha (Nat.mul_div_le _ _) haccept
    rw [← hbs] at h
    obtain ⟨hnext, -⟩ := Sink.answers_after h
    obtain ⟨-, -, hrefuse, -⟩ := Sink.answers_cons 0#8 hnext
    obtain ⟨b, hpadded⟩ := padOut_refuse (s := { s with engine := e, sink := s.sink.offeredAll bs })
      (show 0 < e.count by omega) (show e.count < 8 by omega) hrefuse
    refine ⟨bs, b, e, ?_, hbs, hwindow.symm, hok, hconfig⟩
    simp only [flushAll, drainAll, hdrain, hpadded, Sink.offeredAll_append]
    rfl

/-- Settles O42: both commands answer SINK_FAIL from the state in which the same flush stopped. -/
theorem refusedFlushAndCloseKeepBits : Obligations.RefusedFlushAndCloseKeepBits := by
  rintro s j rest ⟨hconfigured, hwriter⟩ ha h
  obtain ⟨bs, b, e, hflush, hlen, hwindow, hok, hconfig⟩ := flushAll_refuse ha h
  refine ⟨bs, b, e, hlen, ?_, ?_, hwindow, hok, hconfig, Sink.offeredAll_refuse h hlen b⟩
  · rw [exec_flush ⟨hconfigured, hwriter⟩, hflush]
    rfl
  · rw [exec_close hconfigured, if_pos hwriter, hflush]
    rfl

end Sys2Proof.Machine
end

section
/-! PROOFS. A step of one instance of a platform (60_exceptions R255): that instance moves by its own step, or its fault names it (log 22). -/

namespace Sys2Proof.Machine

variable {k : Nat} {p q : Platform}

/-- A platform step that completes puts the next state of instance `k` in its place. -/
theorem Platform.stepAt_next (h : p.stepAt k = some (.next q)) : ∃ s t, p[k]? = some s ∧ step s = .next t ∧ q = p.set k t := by
  unfold Platform.stepAt at h
  split at h
  · cases h
  · rename_i s hs
    split at h
    · rename_i t ht
      cases h
      exact ⟨s, t, hs, ht, rfl⟩
    all_goals cases h

/-- A platform step that faults is the fault of instance `k`, under its number. -/
theorem Platform.stepAt_fault {j : Nat} {r : Fault} (h : p.stepAt k = some (.fault (j, r))) :
    j = k ∧ ∃ s, p[k]? = some s ∧ step s = .fault r := by
  unfold Platform.stepAt at h
  split at h
  · cases h
  · rename_i s hs
    split at h
    · cases h
    · rename_i hr
      cases h
      exact ⟨rfl, s, hs, hr⟩
    · cases h

/-- Settles O56: the platform afterwards is the one before with the state of instance `k` set. -/
theorem instancesAreIndependent : Obligations.InstancesAreIndependent := by
  refine fun k p => ⟨fun q h => ?_, fun j r h => Platform.stepAt_fault h⟩
  obtain ⟨s, t, hs, ht, rfl⟩ := Platform.stepAt_next h
  obtain ⟨hk, -⟩ := List.getElem?_eq_some_iff.mp hs
  exact ⟨List.length_set, fun j hj => List.getElem?_set_ne hj.symm, s, t, hs, ht, List.getElem?_set_self hk⟩

end Sys2Proof.Machine
end

section
/-! PROOFS. A width outside 1 to 64: INVALID_WIDTH in a validated tier (60_exceptions R245), `fault UNDEFINED` in the FAST tier (R249, 42_fast_reader
R162), where an EOS on a mandatory pull is one as well. -/

namespace Sys2Proof.Machine

variable {s u : State} {n : Nat}

theorem validWidth_eq_false_iff : validWidth n = false ↔ n = 0 ∨ 64 < n := by
  rw [← Bool.not_eq_true, validWidth_iff]
  omega

/-! ### The validated tiers -/

/-- Whatever READ or PEEK would do after its refill, it makes no pull for an invalid width (41_reader R131). -/
theorem validatedRead_of_invalid (hn : n = 0 ∨ 64 < n) (c : State → Result) (s : State) :
    validatedRead n c s = .next (s.answered ⟨.invalidWidth, 0#64⟩) := by
  rw [validatedRead, validWidth_eq_false_iff.mpr hn]
  rfl

/-- WRITE checks the width before the capacity (43_writer R184). -/
theorem exec_write_of_invalid {d : Data} (hl : LegalIn (.write n d) s.engine) (hn : n = 0 ∨ 64 < n) :
    exec (.write n d) s = .next (s.answered ⟨.invalidWidth, 0#64⟩) := by
  have hlegal := (legal_iff _ _).mpr hl
  simp only [exec, execWrite, hlegal, validWidth_eq_false_iff.mpr hn]
  rfl

/-- Settles O21: the width check stands before every port transaction. -/
theorem invalidWidthChangesNothing : Obligations.InvalidWidthChangesNothing := by
  refine fun n d s hn => ⟨fun hl => ?_, fun hl => ?_, fun hl => exec_write_of_invalid hl hn⟩
  · rw [exec_read_of_legal hl, validatedRead_of_invalid hn]
  · rw [exec_peek_of_legal hl, validatedRead_of_invalid hn]

/-! ### READU -/

theorem exec_readu_of_invalid (hl : LegalIn (.readu n) s.engine) (hn : n = 0 ∨ 64 < n) : exec (.readu n) s = faultUndefined s := by
  have hlegal := (legal_iff _ _).mpr hl
  simp only [exec, execReadu, hlegal, validWidth_eq_false_iff.mpr hn]
  rfl

theorem exec_readu_of_eos (hl : LegalIn (.readu n) s.engine) (h1 : 1 ≤ n) (h2 : n ≤ 64) (hf : stdFill n s = .eos u) :
    exec (.readu n) s = faultUndefined u := by
  rw [exec_readu hl h1 h2, hf]
  rfl

/-- Settles O33: the fault carries the state reached, before the first pull or after the EOS. -/
theorem brokenReaduIsUndefined : Obligations.BrokenReaduIsUndefined := by
  refine fun n s hl => ⟨fun hn => ⟨_, exec_readu_of_invalid hl hn, rfl, rfl⟩, fun bs rest h1 h2 h => ?_⟩
  obtain ⟨e, he, -⟩ := stdFill_eos h2 h
  exact ⟨_, exec_readu_of_eos hl h1 h2 he, rfl, rfl⟩

end Sys2Proof.Machine
end

section
/-! PROOFS. Why a command answers the status it answers (60_exceptions R240 to R248), and with it the legality matrix (R243). -/

namespace Sys2Proof.Machine

variable {s t u : State} {i : Instr} {n k : Nat} {d v : Data} {e f : Engine}

/-! ### An EOS among the mandatory pulls -/

/-- An EOS on an optional pull is silent (41_reader R136). -/
theorem prefetchBytes_ne_eos (k : Nat) (s t : State) : prefetchBytes k s ≠ .eos t := by
  induction k generalizing s with
  | zero => nofun
  | succ k ih =>
    simp only [prefetchBytes]
    split
    · split
      · exact ih _
      · nofun
    · nofun
    · nofun

/-- A reader's refill ends at an EOS only where its mandatory part does. -/
theorem readerFill_eos_mem (h : readerFill n s = .eos t) : .eos ∈ s.source.answers (s.engine.need n) := by
  unfold readerFill at h
  split at h
  · exact fillBytes_eos_mem h
  · unfold bulkFill at h
    split at h
    · split at h
      · exact absurd h (prefetchBytes_ne_eos _ _ _)
      · cases h
    · exact fillBytes_eos_mem ‹_›
    all_goals cases h

/-! ### A refusal among the offers -/

theorem Sink.answers_subset {j : Nat} (q : Sink) (h : j ≤ k) : q.answers j ⊆ q.answers k := by
  rw [← Sink.answers_take q h]
  exact List.take_subset _ _

theorem drainAll_refuse_mem (h : drainAll s = .refused t) : .refuse ∈ s.sink.answers (s.engine.count / 8) := drainBytes_refuse_mem h

theorem padOut_refused (h : padOut s = .refused t) : 0 < s.engine.count ∧ s.sink.answer = .refuse := by
  unfold padOut at h
  split at h
  · split at h
    · split at h
      · cases h
      · exact ⟨‹_›, ‹_›⟩
      · cases h
    · cases h
  · cases h

/-- A flush ends at a refusal of a full byte or of the pad, so only where the sink answered one (43_writer R182, R188). -/
theorem flushAll_refuse_mem (h : flushAll s = .refused t) : .refuse ∈ s.sink.answers ((s.engine.count + 7) / 8) := by
  unfold flushAll at h
  split at h
  · rename_i u hdrain
    obtain ⟨hpos, hrefuse⟩ := padOut_refused h
    obtain ⟨bs, hlen, hsink⟩ := drainBytes_sink (t := u) (congrArg Drain.state hdrain)
    have hcount := drainBytes_done_count hdrain
    refine Sink.answers_subset s.sink (j := bs.length + 1) (by omega) ?_
    rw [Sink.answers_add, ← hsink]
    simp [Sink.answers, hrefuse]
  · exact Sink.answers_subset s.sink (j := s.engine.count / 8) (by omega) (drainAll_refuse_mem ‹_›)
  all_goals cases h

theorem Engine.put_count (h : e.put v n = some f) : f.count = e.count + n := by
  rw [Engine.put_eq] at h
  split at h
  · cases h
  · cases h
    exact Engine.insert_count (by omega)

theorem Engine.SameConfig.is {tier : Tier} (h : e.SameConfig f) (he : e.Is tier) : f.Is tier := by
  obtain ⟨hvalid, htier, -⟩ := h
  exact ⟨hvalid.trans he.1, htier.trans he.2⟩

/-! ### The cause of a status -/

/-- Why the command `i` issued in `s` answers a status from the state `u` (60_exceptions R240). -/
inductive StatusCause (i : Instr) (s : State) : State → Status → Prop
  | ok {u : State} : StatusCause i s u .ok
  | invalidWidth {n : Nat} {d : Data} (command : i = .read n ∨ i = .peek n ∨ i = .write n d) (width : n = 0 ∨ 64 < n) :
      StatusCause i s s .invalidWidth
  | endOfStream {u : State} {n : Nat} (command : i = .read n ∨ i = .peek n) (eos : .eos ∈ s.source.answers (s.engine.need n)) :
      StatusCause i s (u.withEngine u.engine.clear) .endOfStream
  | overflow {n : Nat} {d : Data} (command : i = .write n d) (full : 71 < s.engine.count + n) : StatusCause i s s .overflow
  | writeRefused {u : State} {n : Nat} {d : Data} (writer : u.engine.Is .writer) (command : i = .write n d)
      (refused : .refuse ∈ s.sink.answers ((s.engine.count + n) / 8)) : StatusCause i s u .sinkFail
  | flushRefused {u : State} (writer : u.engine.Is .writer) (command : i = .flush ∨ i = .close)
      (refused : .refuse ∈ s.sink.answers ((s.engine.count + 7) / 8)) : StatusCause i s u .sinkFail
  | illegal (illegal : ¬ LegalIn i s.engine) : StatusCause i s s .illegalCommand

/-- The state `t` is what some state became when the command `i`, issued in `s`, answered a status that has its cause. -/
def State.CausedBy (i : Instr) (s t : State) : Prop := ∃ u r, t = State.answered u r ∧ StatusCause i s u r.status

theorem respond_ok_causedBy (h : respond .ok v u = .next t) : State.CausedBy i s t :=
  ⟨u, _, respond_eq h, .ok⟩

theorem takeField_causedBy (h : takeField n u = .next t) : State.CausedBy i s t := by
  obtain ⟨-, rfl⟩ := takeField_next h
  exact ⟨_, _, rfl, .ok⟩

theorem lookField_causedBy (h : lookField n u = .next t) : State.CausedBy i s t := by
  obtain ⟨-, rfl⟩ := lookField_next h
  exact ⟨_, _, rfl, .ok⟩

section
variable {c : State → Result} (hc : ∀ {u}, c u = .next t → State.CausedBy i s t)
include hc

theorem validatedRead_causedBy (hi : i = .read n ∨ i = .peek n) (h : validatedRead n c s = .next t) : State.CausedBy i s t := by
  unfold validatedRead at h
  split at h
  · rename_i hw
    exact ⟨s, _, respond_eq h, .invalidWidth (d := 0#64) (hi.imp_right .inl) (validWidth_eq_false_iff.mp (by simpa using hw))⟩
  · rename_i hw
    obtain ⟨-, hn⟩ := (validWidth_iff n).mp (by simpa using hw)
    obtain ⟨u, -, hu⟩ | ⟨u, hf, rfl⟩ | ⟨u, hf, -⟩ := afterFill_next h
    · exact hc hu
    · exact ⟨_, _, rfl, .endOfStream hi (readerFill_eos_mem hf)⟩
    · exact absurd hf (readerFill_no_overflow s hn u)

theorem afterDrain_causedBy {drain : Drain} (hd : ∀ {u}, drain = .refused u → StatusCause i s u .sinkFail)
    (h : afterDrain drain c = .next t) : State.CausedBy i s t := by
  obtain ⟨u, -, hu⟩ | ⟨u, hu, rfl⟩ := afterDrain_next h
  · exact hc hu
  · exact ⟨u, _, rfl, hd hu⟩

end

/-- The flush of FLUSH and of a writer's CLOSE. -/
theorem flushAll_cause (hi : i = .flush ∨ i = .close) (hs : s.engine.Is .writer) (h : flushAll s = .refused u) : StatusCause i s u .sinkFail :=
  .flushRefused ((flushAll_keeps (t := u) (congrArg Drain.state h)).config.is hs) hi (flushAll_refuse_mem h)

theorem drainAll_cause (hs : s.engine.Is .writer) (hput : s.engine.put d n = some e) (h : drainAll (s.withEngine e) = .refused u) :
    StatusCause (.write n d) s u .sinkFail := by
  have hconfig := ((Engine.put_keeps hput).trans (drainAll_keeps (t := u) (congrArg Drain.state h))).config
  have hmem : .refuse ∈ s.sink.answers (e.count / 8) := drainAll_refuse_mem h
  rw [Engine.put_count hput] at hmem
  exact .writeRefused (hconfig.is hs) rfl hmem

theorem execWrite_causedBy (hl : LegalIn (.write n d) s.engine) (h : execWrite n d s = .next t) : State.CausedBy (.write n d) s t := by
  have hlegal := (legal_iff _ _).mpr hl
  simp only [execWrite, hlegal, Bool.not_true, Bool.false_eq_true, if_false] at h
  split at h
  · rename_i hw
    exact ⟨s, _, respond_eq h, .invalidWidth (.inr (.inr rfl)) (validWidth_eq_false_iff.mp (by simpa using hw))⟩
  · split at h
    · rename_i hput
      exact ⟨s, _, respond_eq h, .overflow rfl ((s.engine.put_eq_none_iff d n).mp hput)⟩
    · exact afterDrain_causedBy respond_ok_causedBy (drainAll_cause hl ‹_›) h

theorem exec_causedBy (h : exec i s = .next t) : State.CausedBy i s t := by
  by_cases hl : LegalIn i s.engine
  · cases i with
    | openCmd tier endian =>
      rw [exec_openCmd hl] at h
      exact respond_ok_causedBy h
    | read n =>
      rw [exec_read_of_legal hl] at h
      exact validatedRead_causedBy takeField_causedBy (.inl rfl) h
    | peek n =>
      rw [exec_peek_of_legal hl] at h
      exact validatedRead_causedBy lookField_causedBy (.inr rfl) h
    | readu n =>
      obtain ⟨-, -, u, -, rfl⟩ := exec_readu_next hl h
      exact ⟨_, _, rfl, .ok⟩
    | write n data => exact execWrite_causedBy hl h
    | flush =>
      rw [exec_flush hl] at h
      exact afterDrain_causedBy respond_ok_causedBy (flushAll_cause (.inl rfl) hl) h
    | avail =>
      rw [exec_avail hl] at h
      exact respond_ok_causedBy h
    | close =>
      rw [exec_close hl] at h
      split at h
      · exact afterDrain_causedBy respond_ok_causedBy (flushAll_cause (.inr rfl) ⟨hl, ‹_›⟩) h
      · exact respond_ok_causedBy h
    | discard =>
      rw [exec_discard hl] at h
      exact respond_ok_causedBy h
  · rw [exec_illegal hl] at h
    exact ⟨s, _, (Host.Outcome.next.inj h).symm, .illegal hl⟩

/-! ### The statements -/

/-- Settles O16: ILLEGAL_COMMAND has one cause, and a legal command is without it. -/
theorem legalityMatrix : Obligations.LegalityMatrix := by
  refine fun i s => ⟨exec_illegal, fun hl t h hlast => ?_⟩
  obtain ⟨u, r, rfl, hcause⟩ := exec_causedBy h
  obtain rfl : r = ⟨.illegalCommand, 0#64⟩ := by simpa using hlast
  cases hcause with
  | illegal hillegal => exact hillegal hl

theorem Status.code_lt (st : Status) : st.code < 6#3 := by cases st <;> decide

/-- Settles O50: each status leaves the constructors of `StatusCause` that answer it. -/
theorem statusHasItsCause : Obligations.StatusHasItsCause := by
  intro i s t r h hr
  obtain ⟨u, r', rfl, hcause⟩ := exec_causedBy h
  obtain rfl : r' = r := by simpa using congrArg List.getLast? hr
  obtain ⟨st, v⟩ := r'
  refine ⟨?_, ?_, ?_, ?_, ?_, ?_, ?_⟩
  · rintro rfl
    cases hcause with
    | invalidWidth hi hn => exact ⟨rfl, _, _, hn, hi⟩
  · rintro rfl
    cases hcause with
    | endOfStream hi heos => exact ⟨rfl, rfl, _, hi, heos⟩
  · rintro rfl
    cases hcause with
    | overflow hi hfull => exact ⟨rfl, _, _, hi, hfull⟩
  · rintro rfl
    cases hcause with
    | writeRefused hwriter hi hmem => exact ⟨hwriter, .inl ⟨_, _, hi, hmem⟩⟩
    | flushRefused hwriter hi hmem => exact ⟨hwriter, .inr ⟨hi, hmem⟩⟩
  · rintro rfl
    cases hcause with
    | illegal hillegal => exact ⟨rfl, hillegal⟩
  · have hlt := st.code_lt
    bv_omega
  · have hlt := st.code_lt
    bv_omega

end Sys2Proof.Machine
end

section
/-! PROOFS. The engine's reset values (70 R270), the host's reset move (R272), and what is legal right after it (R271). -/

namespace Sys2Proof.Machine

/-- Settles O1: `CONFIG` and the accumulator state are views of the six reset values. -/
theorem resetValues : Obligations.ResetValues := ⟨rfl, rfl, rfl⟩

/-- Every row of the legality matrix (60_exceptions R243) but OPEN's asks for a configured instance. -/
theorem LegalIn.isOpen_or_configured {i : Instr} {e : Engine} (h : LegalIn i e) :
    (∃ tier endian, i = .openCmd tier endian) ∨ e.cfgValid = true := by
  cases i with
  | openCmd tier endian => exact .inl ⟨tier, endian, rfl⟩
  | read | peek | readu | write | flush => exact .inr h.1
  | avail | close | discard => exact .inr h

/-- Settles O3: the reset engine is idle, so OPEN's is the one legal row. -/
theorem afterResetOnlyOpenIsLegal : Obligations.AfterResetOnlyOpenIsLegal := by
  intro i s hreset
  have hidle : s.engine.cfgValid = false := congrArg Engine.cfgValid hreset
  by_cases hopen : ∃ tier endian, i = .openCmd tier endian
  · exact .inl hopen
  · exact .inr (exec_of_idle (fun hl => hl.isOpen_or_configured.resolve_left hopen) hidle)

/-- Settles O4: the step is the reset move, whose engine holds no bit of the old one. -/
theorem hostResetLosesPendingBits : Obligations.HostResetLosesPendingBits := by
  intro s hub hmove
  rw [step_of_nextMove_reset hub hmove]
  rfl

end Sys2Proof.Machine
end

section
/-! PROOFS. The engine waiting on its command port (70 R271, R284; log 6). -/

namespace Sys2Proof.Machine

/-- Settles O6: a program with no move at the host index is a host with no next move, the waiting branch of a step. -/
theorem stepWaitsForCommand : Obligations.StepWaitsForCommand :=
  fun _ hub hmove => step_of_nextMove_none hub hmove

end Sys2Proof.Machine
end
